-- ==== Sys2Proof/Word.lean ====
section
/-! DEFINITION. The unit's one word: the byte. Every register, cell, opcode, operand, address and the program counter is one
(00_scope.md R5), and `BitVec 8` arithmetic is arithmetic modulo 256 (R13, R41). -/

namespace Sys2Proof

/-- A byte, an unsigned integer in 0..255 (00_scope.md R5). -/
abbrev Byte := BitVec 8

end Sys2Proof
end

