-- ==== Sys2Proof/Config.lean ====
section
/-! DEFINITION. The sizes this hardware takes (00_scope.md R4). The reset values of R4 stand in Machine/ResetValues.lean and the
opcode bytes in Decode.lean. The spec leaves no value free, so no opaque constant stands here. -/

namespace Sys2Proof.Config

/-- `NREG`: the number of registers, indices 0..7 (R4, R11). -/
abbrev nreg : Nat := 8

/-- `SP_INDEX`: the register that is the stack pointer (R4, R12). -/
abbrev spIndex : Fin nreg := 7

/-- `MEM_SIZE`: the number of memory cells, indices 0..255 (R4, R21). -/
abbrev memSize : Nat := 256

/-- The longest instruction, in bytes (30_encoding.md R62). -/
abbrev maxInstrBytes : Nat := 3

end Sys2Proof.Config
end

