-- ==== Sys2Proof/Syntax.lean ====
section
/-! DEFINITION. The instruction set: exactly the eleven rows of the dispatch table, in its order (30_encoding.md R66). -/

namespace Sys2Proof

/-- One instruction with its operand bytes AS FETCHED (30_encoding.md R63: an operand is one whole byte). A register operand is kept
as the byte, since a byte above 7 is no register and makes the instruction raise `OutOfRangeAddress` with that byte (40_cycle.md R84). -/
inductive Instr where
  /-- No operation (R120). -/
  | nop
  /-- `x[o1] <- o2`: register operand, then immediate (R121). -/
  | ldi (o1 o2 : Byte)
  /-- Emit `x[o1]` (R122). -/
  | prn (o1 : Byte)
  /-- `x[o1] <- x[o1] + x[o2]` (R123). -/
  | add (o1 o2 : Byte)
  /-- `x[o1] <- x[o1] * x[o2]` (R124). -/
  | mul (o1 o2 : Byte)
  /-- `fl <- compare x[o1] x[o2]` (R125). -/
  | cmp (o1 o2 : Byte)
  /-- Push `x[o1]` (R141). -/
  | push (o1 : Byte)
  /-- Pop into `x[o1]` (R142). -/
  | pop (o1 : Byte)
  /-- Push the return address and jump to `x[o1]` (R143). -/
  | call (o1 : Byte)
  /-- Pop into the program counter (R144). -/
  | ret
  /-- Halt (R145). -/
  | hlt
  deriving DecidableEq, Repr

end Sys2Proof
end

