-- ==== Sys2Proof/Decode.lean ====
section
/-! DEFINITION. Opcode bytes, the dispatch table, the decoder (total on any bytes, rejecting by name) and the encoder, all from
30_encoding.md R60 to R75. -/

namespace Sys2Proof

/-! The eleven opcode bytes as named constants (R65). Four are the source's; seven are the spec's decision D3, taken by it from
general knowledge (PRESUMED, log 3). -/

/-- NOP (D3, PRESUMED, log 3). -/
def opcNop : Byte := 0x00#8
/-- LDI (the source's). -/
def opcLdi : Byte := 0x82#8
/-- PRN (the source's). -/
def opcPrn : Byte := 0x47#8
/-- ADD (the source's). -/
def opcAdd : Byte := 0xA0#8
/-- MUL (D3, PRESUMED, log 3). -/
def opcMul : Byte := 0xA2#8
/-- CMP (D3, PRESUMED, log 3). -/
def opcCmp : Byte := 0xA7#8
/-- PUSH (D3, PRESUMED, log 3). -/
def opcPush : Byte := 0x45#8
/-- POP (D3, PRESUMED, log 3). -/
def opcPop : Byte := 0x46#8
/-- CALL (D3, PRESUMED, log 3). -/
def opcCall : Byte := 0x50#8
/-- RET (D3, PRESUMED, log 3). -/
def opcRet : Byte := 0x11#8
/-- HLT (the source's). -/
def opcHlt : Byte := 0x01#8

/-- The behaviours the dispatch table selects, one per instruction (00_scope.md R9, "Handler"). -/
inductive Handler where
  | nop | ldi | prn | add | mul | cmp | push | pop | call | ret | hlt
  deriving DecidableEq, Repr

/-- The dispatch table, a constant map from the FULL opcode byte to a handler (R64, R66; 10_state.md R19: not state). -/
def dispatchTable : List (Byte × Handler) :=
  [(opcNop, .nop), (opcLdi, .ldi), (opcPrn, .prn), (opcAdd, .add), (opcMul, .mul), (opcCmp, .cmp),
   (opcPush, .push), (opcPop, .pop), (opcCall, .call), (opcRet, .ret), (opcHlt, .hlt)]

/-- The lookup of 40_cycle.md R82: a handler, or none for an opcode byte that is not in the table (R75). -/
def dispatch (op : Byte) : Option Handler := dispatchTable.lookup op

/-- Bits 7:6 of the opcode byte, the number of operand bytes (R61; `b[7:6]` is `b div 64`, 00_scope.md R5). -/
def operandCount (op : Byte) : Nat := op.toNat / 64

/-- What the decoder answers: an instruction with the bytes after it, or why not. -/
inductive DecodeResult where
  /-- An instruction and the bytes that follow it. -/
  | instr (i : Instr) (rest : List Byte)
  /-- The opcode byte is not in the dispatch table (R68): the cycle turns this into the error `UnknownOpcode(byte)`. -/
  | unknownOpcode (byte : Byte)
  /-- Fewer bytes were given than the instruction has. No cycle sees this: the fetch supplies every operand byte (40_cycle.md R83). -/
  | truncated
  deriving DecidableEq, Repr

/-- Take one operand byte (format R of R60). -/
def takeOne (f : Byte → Instr) : List Byte → DecodeResult
  | o1 :: rest => .instr (f o1) rest
  | [] => .truncated

/-- Take two operand bytes, the first at the lower address (formats RR and RI of R60; 20_memory.md R43). -/
def takeTwo (f : Byte → Byte → Instr) : List Byte → DecodeResult
  | o1 :: o2 :: rest => .instr (f o1 o2) rest
  | _ => .truncated

/-- The instruction of a handler, from the bytes that follow its opcode (the operand columns of R66). -/
def decodeOperands (h : Handler) (bytes : List Byte) : DecodeResult :=
  match h with
  | .nop => .instr .nop bytes
  | .ldi => takeTwo .ldi bytes
  | .prn => takeOne .prn bytes
  | .add => takeTwo .add bytes
  | .mul => takeTwo .mul bytes
  | .cmp => takeTwo .cmp bytes
  | .push => takeOne .push bytes
  | .pop => takeOne .pop bytes
  | .call => takeOne .call bytes
  | .ret => .instr .ret bytes
  | .hlt => .instr .hlt bytes

/-- The decoder, total on every list of bytes (R75). -/
def decode : List Byte → DecodeResult
  | [] => .truncated
  | op :: bytes =>
    match dispatch op with
    | none => .unknownOpcode op
    | some h => decodeOperands h bytes

/-- The opcode byte of an instruction (R66, column "opcode byte"). -/
def Instr.opcode : Instr → Byte
  | .nop => opcNop
  | .ldi _ _ => opcLdi
  | .prn _ => opcPrn
  | .add _ _ => opcAdd
  | .mul _ _ => opcMul
  | .cmp _ _ => opcCmp
  | .push _ => opcPush
  | .pop _ => opcPop
  | .call _ => opcCall
  | .ret => opcRet
  | .hlt => opcHlt

/-- The operand bytes of an instruction, in the order they lie in memory (R60, R72). -/
def Instr.operands : Instr → List Byte
  | .nop | .ret | .hlt => []
  | .prn o1 | .push o1 | .pop o1 | .call o1 => [o1]
  | .ldi o1 o2 | .add o1 o2 | .mul o1 o2 | .cmp o1 o2 => [o1, o2]

/-- The encoder: the bytes of an instruction at ascending addresses (R60, R72). -/
def encode (i : Instr) : List Byte := i.opcode :: i.operands

/-- The bytes of a word numbered as spec/opcode_table.json numbers it (bit 0 the least significant bit of the first byte), up to
the longest instruction; the bits above `nbits` are 0. -/
def tableWordBytes (nbits w : Nat) : List Byte :=
  let v := w % 2 ^ nbits
  [BitVec.ofNat 8 v, BitVec.ofNat 8 (v / 2 ^ 8), BitVec.ofNat 8 (v / 2 ^ 16)]

/-- The instruction the decoder reads from such a word; none where it refuses. -/
def decodeTableWord (nbits w : Nat) : Option Instr :=
  match decode (tableWordBytes nbits w) with
  | .instr i _ => some i
  | .unknownOpcode _ => none
  | .truncated => none

end Sys2Proof
end

