-- ==== Sys2Proof/Machine/ResetValues.lean ====
section
/-! DEFINITION. The reset values of 10_state.md R23 that rest on a decision of the spec, as named constants (00_scope.md R4). They
stand apart from State.lean so that one of them can be mended alone. -/

namespace Sys2Proof.Machine

/-- `SP_RESET`, the reset value of register 7 (R23; decision D1 between the source's 0xF4 and 0xFF: DESIGN CHOICE, log 1). -/
def spReset : Byte := 0xF4#8

/-- `PC_RESET`, the entry point (R23; decision D5: DEDUCED, log 5). -/
def pcReset : Byte := 0x00#8

/-- The reset value of registers 0 to 6 (R23; decision D6: PRESUMED, log 6). -/
def gprReset : Byte := 0x00#8

/-- The reset value of every memory cell, and so what an address that the memory list does not name reads as (R23; decision D7:
PRESUMED, log 7). -/
def unlistedByte : Byte := 0x00#8

end Sys2Proof.Machine
end

