-- ==== Sys2Proof/Machine/State.lean ====
section
/-! DEFINITION. The machine's whole state as plain data (10_state.md R10), the ways a step can stop, and the state after reset (R23). -/

namespace Sys2Proof.Machine

/-- The error conditions, each identified by its name and payload (60_exceptions.md R180; no numeric codes, D22, log 22). -/
inductive ErrorCondition where
  /-- Decode: the fetched byte is not in the dispatch table (R181). -/
  | unknownOpcode (byte : Byte)
  /-- Decode: an operand byte used as a register index is above 7 (R183). -/
  | outOfRangeAddress (index : Byte)
  /-- ALU: the kinds DIV and MOD with a second value of 0 (R184); no instruction reaches it. -/
  | divisionByZero
  /-- ALU: a kind-select input outside the eight kinds (R186); no instruction reaches it. The source gives the kind no encoding
  (91_not_in_source.md N7), so its payload is a plain number (DESIGN CHOICE, log 23). -/
  | unsupportedALUOperation (kind : Nat)
  /-- The host's `load`: the image does not fit (R182). Never the content of a fault of a cycle. -/
  | programLoadError (reason : String)
  deriving DecidableEq, Repr

/-- The run state `rs` (10_state.md R18). -/
inductive RunState where
  /-- A cycle may execute. -/
  | running
  /-- Terminal, entered only by HLT. -/
  | halted
  /-- Terminal: the error, the address `p` of the offending instruction and its opcode byte `o`. -/
  | faulted (e : ErrorCondition) (p o : Byte)
  deriving DecidableEq, Repr

/-- The 3-bit flags field {Equal, Less, Greater} (10_state.md R16). Held as three bits by name: no instruction reads it as a number
(R17; the positions of D4 are in Machine/Flags.lean, log 4). -/
structure Flags where
  equal : Bool
  less : Bool
  greater : Bool
  deriving DecidableEq, Repr

/-- A register index, 0..7 (10_state.md R11). -/
abbrev Reg := Fin Config.nreg

/-- Memory as the list of the cells that hold something else than `unlistedByte`, addresses strictly rising (log 28). -/
abbrev Memory := List Host.Cell

/-- The complete architectural state of one unit (10_state.md R10). -/
structure State where
  /-- The register file `x[0]` .. `x[7]`; `x[7]` is the stack pointer (R11, R12). -/
  x : Vector Byte Config.nreg
  /-- The program counter (R14). -/
  pc : Byte
  /-- The flags (R16). -/
  fl : Flags
  /-- The 256 cells (R21). -/
  mem : Memory
  /-- The run state (R18). -/
  rs : RunState
  /-- The output history, oldest byte first (R20). -/
  out : List Byte
  deriving DecidableEq, Repr

/-- Why a step could end in no state at all: NOTHING does. Every error the spec names is a state of the machine, `Faulted` (60_exceptions.md
R185, 50_interfaces.md R163: "never a process abort"), so a step that raises one answers a NEXT state (log 13). -/
inductive Fault : Type
  deriving DecidableEq, Repr

/-- Why the model could decline to give a meaning. -/
inductive Refusal where
  /-- Raised by an arm of `exec` whose instruction has no meaning yet; safe. No arm raises it: all eleven have their meaning. -/
  | notModelled (mnemonic : String)
  deriving DecidableEq, Repr

/-- The outcome of one step of this machine. -/
abbrev Outcome := Host.Outcome State Fault Refusal

/-- All three flags clear (R16: the initial value). -/
def Flags.clear : Flags := { equal := false, less := false, greater := false }

/-- The machine right after reset (10_state.md R23; 70_reset_and_hazards.md R210). -/
def State.reset : State where
  x := (Vector.replicate Config.nreg gprReset).set Config.spIndex spReset
  pc := pcReset
  fl := Flags.clear
  mem := []
  rs := .running
  out := []

end Sys2Proof.Machine
end

