-- ==== Sys2Proof/Machine/Flags.lean ====
section
/-! DEFINITION. The flags: the comparison outcome, what it writes (10_state.md R16) and the field's bits (R17). -/

namespace Sys2Proof.Machine

/-- The outcome of a comparison (41_alu.md R100, R109). -/
inductive CompareOutcome where
  | equal | less | greater
  deriving DecidableEq, Repr

/-- The comparison, on unsigned integers, a tie going to Equal (R109). -/
def compareBytes (a b : Byte) : CompareOutcome :=
  if a = b then .equal else if a.toNat < b.toNat then .less else .greater

/-- The value `fl <- c` leaves: that flag set, the other two clear (10_state.md R16). -/
def Flags.ofOutcome : CompareOutcome → Flags
  | .equal => { equal := true, less := false, greater := false }
  | .less => { equal := false, less := true, greater := false }
  | .greater => { equal := false, less := false, greater := true }

/-- The field as three bits: `fl[2]` Less, `fl[1]` Greater, `fl[0]` Equal (R17; decision D4: PRESUMED, log 4). Nothing in the unit uses it. -/
def Flags.toBits (f : Flags) : BitVec 3 :=
  BitVec.ofBool f.less ++ BitVec.ofBool f.greater ++ BitVec.ofBool f.equal

/-- "Mutually exclusive": at most one of the three is set (R16). -/
def Flags.atMostOne (f : Flags) : Bool :=
  !(f.equal && f.less) && !(f.equal && f.greater) && !(f.less && f.greater)

end Sys2Proof.Machine
end

