-- ==== Sys2Proof/Machine/Alu.lean ====
section
/-! DEFINITION. The 8-bit ALU: eight operation kinds, a pure function on values (41_alu.md R100 to R113). -/

namespace Sys2Proof.Machine

/-- The closed set of operation kinds (R100). ADD, MUL and CMP are reached by instructions, the other five by none (R111). -/
inductive AluKind where
  | inc | dec | add | sub | mul | div | mod | cmp
  deriving DecidableEq, Repr

/-- What the ALU answers (R100): a value, a comparison outcome, or an error condition. -/
inductive AluOutcome where
  | value (v : Byte)
  | compare (c : CompareOutcome)
  | error (e : ErrorCondition)
  deriving DecidableEq, Repr

/-- An exact integer brought to a byte: the non-negative remainder modulo 256 (R101; 00_scope.md R5). -/
def wrapByte (n : Int) : Byte := BitVec.ofInt 8 n

/-- The ALU on one of its eight kinds (R102 to R109). INC and DEC ignore `b`. The quotient of DIV is the floor and the remainder of MOD
non-negative (decision D16, log 16). -/
def alu (kind : AluKind) (a b : Byte) : AluOutcome :=
  match kind with
  | .inc => .value (wrapByte ((a.toNat : Int) + 1))
  | .dec => .value (wrapByte ((a.toNat : Int) - 1))
  | .add => .value (wrapByte ((a.toNat : Int) + b.toNat))
  | .sub => .value (wrapByte ((a.toNat : Int) - b.toNat))
  | .mul => .value (wrapByte ((a.toNat : Int) * b.toNat))
  | .div => if b.toNat = 0 then .error .divisionByZero else .value (wrapByte (a.toNat / b.toNat : Nat))
  | .mod => if b.toNat = 0 then .error .divisionByZero else .value (wrapByte (a.toNat % b.toNat : Nat))
  | .cmp => .compare (compareBytes a b)

/-- The kind-select input of an implementation whose input is wider than the eight kinds (R110; the number is the model's, log 23). -/
inductive AluSelect where
  | kind (k : AluKind)
  | unrecognised (k : Nat)
  deriving DecidableEq, Repr

/-- The ALU with its checked failure path for an unrecognised kind (R110, R186). -/
def aluApply (sel : AluSelect) (a b : Byte) : AluOutcome :=
  match sel with
  | .kind k => alu k a b
  | .unrecognised k => .error (.unsupportedALUOperation k)

end Sys2Proof.Machine
end

