-- ==== Sys2Proof/Machine/Ops.lean ====
section
/-! DEFINITION. The named operations over memory, registers, stack, output and program counter, and taking an error (fault entry). -/

namespace Sys2Proof.Machine

/-! ### Memory -/

/-- The byte in a cell: what the list says, `unlistedByte` where it says nothing (20_memory.md R40; 10_state.md R26: never a fault). -/
def Memory.read : Memory → Nat → Byte
  | [], _ => unlistedByte
  | c :: rest, a => if c.1 = a then c.2 else Memory.read rest a

/-- The list without any entry for an address. -/
def Memory.erase (m : Memory) (a : Nat) : Memory := m.filter (fun c => decide (c.1 ≠ a))

/-- Put a cell in front of the first one with a higher address. -/
def Memory.insert (a : Nat) (v : Byte) : Memory → Memory
  | [] => [(a, v)]
  | c :: rest => if a < c.1 then (a, v) :: c :: rest else c :: Memory.insert a v rest

/-- Store a byte in a cell, keeping the canonical form (20_memory.md R40). -/
def Memory.write (m : Memory) (a : Nat) (v : Byte) : Memory :=
  if v = unlistedByte then m.erase a else Memory.insert a v (m.erase a)

/-- The canonical form: addresses strictly rising and below 256, no entry equal to what an unlisted address reads as. -/
abbrev Memory.wf (m : Memory) : Prop :=
  m.Pairwise (fun c d => c.1 < d.1) ∧ ∀ c ∈ m, c.1 < Config.memSize ∧ c.2 ≠ unlistedByte

/-- `MemRead(a, 1)` (20_memory.md R40). -/
def State.byteAt (s : State) (a : Byte) : Byte := s.mem.read a.toNat

/-- `MemWrite(a, 1, v)` (20_memory.md R40). -/
def State.storeByte (s : State) (a v : Byte) : State := { s with mem := s.mem.write a.toNat v }

/-! ### Registers -/

/-- `x[r]` (10_state.md R11). -/
def State.reg (s : State) (r : Reg) : Byte := s.x[r]

/-- `x[r] <- v` (10_state.md R11: no register is hard-wired or read-only). -/
def State.setReg (s : State) (r : Reg) (v : Byte) : State := { s with x := s.x.set r v }

/-- The stack pointer, which IS `x[7]` (10_state.md R12). -/
def State.sp (s : State) : Byte := s.reg Config.spIndex

/-- Write the stack pointer. -/
def State.setSp (s : State) (v : Byte) : State := s.setReg Config.spIndex v

/-! ### Program counter, flags, run state, output -/

/-- `pc <- t`. -/
def State.setPc (s : State) (t : Byte) : State := { s with pc := t }

/-- `fl <- c` (10_state.md R16). -/
def State.setFlags (s : State) (c : CompareOutcome) : State := { s with fl := Flags.ofOutcome c }

/-- `rs <- r` (10_state.md R18). -/
def State.setRunState (s : State) (r : RunState) : State := { s with rs := r }

/-- `Emit(v)`: append a byte to the output history (10_state.md R20). -/
def State.emit (s : State) (v : Byte) : State := { s with out := s.out ++ [v] }

/-! ### The stack sequences (43_stack_control_instructions.md R140), each step over the live registers (D10, log 10) -/

/-- `push(v)`: write at the stack pointer, THEN decrement it. -/
def State.push (s : State) (v : Byte) : State :=
  let s := s.storeByte s.sp v
  s.setSp (s.sp - 1)

/-- The first step of a pop: increment the stack pointer, BEFORE reading. -/
def State.raiseSp (s : State) : State := s.setSp (s.sp + 1)

/-- The read of a pop: the byte at the stack pointer. -/
def State.top (s : State) : Byte := s.byteAt s.sp

/-- The last step of a pop: clear the byte at the stack pointer. -/
def State.clearTop (s : State) : State := s.storeByte s.sp 0

/-! ### Taking an error, and the common end of a cycle -/

/-- Fault entry (60_exceptions.md R185): `rs <- Faulted(e, p, op)` and nothing else. There is no return from it (R189): only a
reset leaves it. -/
def State.enterFault (s : State) (e : ErrorCondition) (p op : Byte) : State := s.setRunState (.faulted e p op)

/-- An error raised in decode, before any side effect: `p` is the program counter (40_cycle.md R82, R84). -/
def raise (e : ErrorCondition) (op : Byte) (s : State) : Outcome := .next (s.enterFault e s.pc op)

/-- The instructions after which the program counter is not advanced: {CALL, RET} (40_cycle.md R86; 00_scope.md R9). -/
def controlTransferSet : List Byte := [opcCall, opcRet]

/-- The advance step (40_cycle.md R86): by membership of the opcode in the control-transfer set. -/
def State.advance (s : State) (p op : Byte) : State :=
  if op ∈ controlTransferSet then s else s.setPc (p + 1 + BitVec.ofNat 8 (operandCount op))

/-- What a handler leaves: it is done, or it has raised an error with the state it had made so far (60_exceptions.md R185: not rolled back). -/
inductive Handled where
  | done (s : State)
  | raised (e : ErrorCondition) (s : State)

/-- The execute and advance steps of a cycle (40_cycle.md R85, R86, R87) for an instruction with opcode `op` and this handler. -/
def execute (op : Byte) (handler : State → Handled) (s : State) : Outcome :=
  match handler s with
  | .done t => .next (t.advance s.pc op)
  | .raised e t => .next (t.enterFault e s.pc op)

/-- The core's use of an ALU outcome (41_alu.md R100): a value goes to the destination register, a comparison to the flags, an
error is raised with neither written (R107). -/
def deliver (d : Reg) (o : AluOutcome) (s : State) : Handled :=
  match o with
  | .value v => .done (s.setReg d v)
  | .compare c => .done (s.setFlags c)
  | .error e => .raised e s

end Sys2Proof.Machine
end

