-- ==== Sys2Proof/Machine/Operands.lean ====
section
/-! DEFINITION. The operand forms (30_encoding.md R63): the register operand with its range check (40_cycle.md R84), and the immediate,
which is the byte itself and has no check. -/

namespace Sys2Proof.Machine

/-- The register an operand byte names, if it is 0..7; the index is not reduced modulo 8 (R63; decision D8, log 8). -/
def registerOf (o : Byte) : Option Reg :=
  if h : o.toNat < Config.nreg then some ⟨o.toNat, h⟩ else none

/-- The operand byte that names a register (30_encoding.md R72). -/
def regOperand (r : Reg) : Byte := BitVec.ofNat 8 r.val

/-- Check one register operand in decode, before any state is written (40_cycle.md R84; decision D9, log 9). -/
def withRegister (op o : Byte) (s : State) (k : Reg → Outcome) : Outcome :=
  match registerOf o with
  | none => raise (.outOfRangeAddress o) op s
  | some r => k r

/-- Check two register operands, the first before the second (40_cycle.md R84; decision D14, log 14). -/
def withRegisters (op o1 o2 : Byte) (s : State) (k : Reg → Reg → Outcome) : Outcome :=
  withRegister op o1 s fun a => withRegister op o2 s fun b => k a b

end Sys2Proof.Machine
end

