-- ==== Sys2Proof/Machine/Data.lean ====
section
/-! DEFINITION. The meanings of NOP, LDI, PRN, ADD, MUL and CMP (42_data_instructions.md R120 to R126). -/

namespace Sys2Proof.Machine

/-- NOP (R120): nothing but the advance. -/
def execNop (s : State) : Outcome :=
  execute opcNop (fun s => .done s) s

/-- LDI (R121): `x[o1] <- o2`. -/
def execLdi (o1 o2 : Byte) (s : State) : Outcome :=
  withRegister opcLdi o1 s fun r => execute opcLdi (fun s => .done (s.setReg r o2)) s

/-- PRN (R122): `Emit(x[o1])`. -/
def execPrn (o1 : Byte) (s : State) : Outcome :=
  withRegister opcPrn o1 s fun r => execute opcPrn (fun s => .done (s.emit (s.reg r))) s

/-- ADD (R123): `x[o1] <- (x[o1] + x[o2]) mod 256`, by the ALU. -/
def execAdd (o1 o2 : Byte) (s : State) : Outcome :=
  withRegisters opcAdd o1 o2 s fun a b =>
    execute opcAdd (fun s => deliver a (alu .add (s.reg a) (s.reg b)) s) s

/-- MUL (R124): `x[o1] <- (x[o1] * x[o2]) mod 256`, by the ALU. -/
def execMul (o1 o2 : Byte) (s : State) : Outcome :=
  withRegisters opcMul o1 o2 s fun a b =>
    execute opcMul (fun s => deliver a (alu .mul (s.reg a) (s.reg b)) s) s

/-- CMP (R125): the comparison of `x[o1]` with `x[o2]` goes to the flags. -/
def execCmp (o1 o2 : Byte) (s : State) : Outcome :=
  withRegisters opcCmp o1 o2 s fun a b =>
    execute opcCmp (fun s => deliver a (alu .cmp (s.reg a) (s.reg b)) s) s

end Sys2Proof.Machine
end

