-- ==== Sys2Proof/Machine/Stack.lean ====
section
/-! DEFINITION. The meanings of PUSH, POP, CALL, RET and HLT (43_stack_control_instructions.md R140 to R148). Each handler's steps run in
the written order over the live state (decision D10, log 10). -/

namespace Sys2Proof.Machine

/-- PUSH (R141): `Mem[x7] <- x[o1]; x7 <- x7 - 1`. -/
def execPush (o1 : Byte) (s : State) : Outcome :=
  withRegister opcPush o1 s fun r => execute opcPush (fun s => .done (s.push (s.reg r))) s

/-- POP (R142): `x7 <- x7 + 1; x[o1] <- Mem[x7]; Mem[x7] <- 0`; the clear uses the stack pointer as the register write left it, which
for POP R7 is the popped value (D10, log 10). -/
def execPop (o1 : Byte) (s : State) : Outcome :=
  withRegister opcPop o1 s fun r =>
    execute opcPop (fun s =>
      let s := s.raiseSp
      let s := s.setReg r s.top
      .done s.clearTop) s

/-- CALL (R143): push the address after the instruction, then `pc <- x[o1]`, read after the push (for CALL R7 the decremented stack
pointer: D10, log 10). During the cycle the program counter is still `p` (10_state.md R14). -/
def execCall (o1 : Byte) (s : State) : Outcome :=
  withRegister opcCall o1 s fun r =>
    execute opcCall (fun s =>
      let s := s.push (s.pc + 2)
      .done (s.setPc (s.reg r))) s

/-- RET (R144): `x7 <- x7 + 1; pc <- Mem[x7]; Mem[x7] <- 0` (the clear: decision D11, log 11). -/
def execRet (s : State) : Outcome :=
  execute opcRet (fun s =>
    let s := s.raiseSp
    let s := s.setPc s.top
    .done s.clearTop) s

/-- HLT (R145): `rs <- Halted`; the advance step follows as for any instruction (decision D12, log 12). -/
def execHlt (s : State) : Outcome :=
  execute opcHlt (fun s => .done (s.setRunState .halted)) s

end Sys2Proof.Machine
end

