-- ==== Sys2Proof/Machine/Dispatch.lean ====
section
/-! DEFINITION. The dispatcher: one arm per instruction (40_cycle.md R85, R90). -/

namespace Sys2Proof.Machine

def exec (i : Instr) (s : State) : Host.Outcome State Fault Refusal :=
  match i with
  | .nop => Sys2Proof.Machine.execNop s
  | .ldi o1 o2 => Sys2Proof.Machine.execLdi o1 o2 s
  | .prn o1 => Sys2Proof.Machine.execPrn o1 s
  | .add o1 o2 => Sys2Proof.Machine.execAdd o1 o2 s
  | .mul o1 o2 => Sys2Proof.Machine.execMul o1 o2 s
  | .cmp o1 o2 => Sys2Proof.Machine.execCmp o1 o2 s
  | .push o1 => Sys2Proof.Machine.execPush o1 s
  | .pop o1 => Sys2Proof.Machine.execPop o1 s
  | .call o1 => Sys2Proof.Machine.execCall o1 s
  | .ret => Sys2Proof.Machine.execRet s
  | .hlt => Sys2Proof.Machine.execHlt s

end Sys2Proof.Machine
end

