-- ==== Sys2Proof/Machine/Cycle.lean ====
section
/-! DEFINITION. One cycle: fetch and operand latch, decode, and the instruction's meaning (40_cycle.md R81 to R87). -/

namespace Sys2Proof.Machine

/-- The operand bytes a cycle reads for an opcode byte: `n` of them at `p + 1`, `p + 2` modulo 256, and none for a byte that is not
dispatched (40_cycle.md R82, R83; decision D24, log 24). -/
def State.operandBytes (s : State) (op : Byte) : List Byte :=
  match dispatch op with
  | none => []
  | some _ =>
    match operandCount op with
    | 0 => []
    | 1 => [s.byteAt (s.pc + 1)]
    | _ => [s.byteAt (s.pc + 1), s.byteAt (s.pc + 2)]

/-- The bytes one cycle reads as its instruction: the opcode, then its operands. They are read before the handler writes anything, so
a store cannot change the running instruction (20_memory.md R52; decision D9, log 9). -/
def State.fetchBytes (s : State) : List Byte :=
  let op := s.byteAt s.pc
  op :: s.operandBytes op

/-- Place three bytes at the program counter and on (the place the next fetch reads), addresses wrapping. -/
def State.placeAtPc (s : State) (bytes : List Byte) : State :=
  match bytes with
  | [] => s
  | [b0] => s.storeByte s.pc b0
  | [b0, b1] => (s.storeByte s.pc b0).storeByte (s.pc + 1) b1
  | b0 :: b1 :: b2 :: _ => ((s.storeByte s.pc b0).storeByte (s.pc + 1) b1).storeByte (s.pc + 2) b2

/-- One cycle of a running unit (40_cycle.md R87): its instruction runs, or decode fails with `UnknownOpcode` (R82). `fetchBytes` never
gives a truncated instruction (the lemma `decode_fetchBytes_ne_truncated`), so that arm, which would change nothing, is never taken. -/
def cycle (s : State) : Outcome :=
  match decode s.fetchBytes with
  | .instr i _ => exec i s
  | .unknownOpcode op => raise (.unknownOpcode op) op s
  | .truncated => .next s

end Sys2Proof.Machine
end

