-- ==== Sys2Proof/Machine/Step.lean ====
section
/-! DEFINITION. One step, and the placing of a word where the next step fetches. -/

namespace Sys2Proof.Machine

/-- `step` (40_cycle.md R88): a running unit performs one cycle; a halted or faulted one changes nothing (decision D18, log 18). -/
def step (s : State) : Host.Outcome State Fault Refusal :=
  match s.rs with
  | .running => cycle s
  | .halted => .next s
  | .faulted _ _ _ => .next s

/-- The state with a table word stored at the program counter and the unit running, so that the next step fetches and runs it. It
stands for the host's `load` before a run (log 27); it is no move of the machine. -/
def State.withFetchWord (s : State) (nbits w : Nat) : State :=
  (s.placeAtPc (tableWordBytes nbits w)).setRunState .running

end Sys2Proof.Machine
end

