-- ==== Sys2Proof/Machine/HostInterface.lean ====
section
/-! DEFINITION. The host's operations between cycles: load, run under a bound, the stop report, the rendering of the output
(50_interfaces.md R160 to R168). Reset is `State.reset`, and `step` is in Machine/Step.lean. -/

namespace Sys2Proof.Machine

/-- What `load` answers (R162). -/
inductive LoadResult where
  | loaded (s : State)
  | failed (e : ErrorCondition)
  deriving DecidableEq, Repr

/-- Copy bytes to ascending addresses (R162). -/
def Memory.copy (m : Memory) (a : Nat) : List Byte → Memory
  | [] => m
  | b :: rest => Memory.copy (m.write a b) (a + 1) rest

/-- `load(bytes, start_address)` (R162): the cells of the image and nothing else; an image that does not fit is rejected whole, and
nothing is written (decision D19, log 19). The reason's words are the model's (log 30). -/
def load (bytes : List Byte) (start : Byte) (s : State) : LoadResult :=
  if start.toNat + bytes.length ≤ Config.memSize then
    .loaded { s with mem := s.mem.copy start.toNat bytes }
  else
    .failed (.programLoadError "image does not fit in memory")

/-- One request of the host: the state `step` leaves (R163). A step of this machine always leaves one. -/
def stepState (s : State) : State :=
  match step s with
  | .next t => t
  | .fault _ => s
  | .refused _ => s

/-- `run` under the host's bound of `k` cycles (40_cycle.md R89; 50_interfaces.md R164): it stops asking when the unit has stopped. -/
def runFor : Nat → State → State
  | 0, s => s
  | k + 1, s =>
    match s.rs with
    | .running => runFor k (stepState s)
    | .halted => s
    | .faulted _ _ _ => s

/-- The stop report (R167): the run state (with the error, its address and its opcode in it) and the output. -/
structure StopReport where
  rs : RunState
  out : List Byte
  deriving DecidableEq, Repr

/-- What the host reads when the unit has stopped (R167). -/
def State.report (s : State) : StopReport := { rs := s.rs, out := s.out }

/-- The host's rendering of the output: each byte as its unsigned decimal numeral, without leading zeros (R166). How the numerals are
separated is not stated, so they stay a list (log 17). -/
def renderOutput (out : List Byte) : List String := out.map fun b => toString b.toNat

end Sys2Proof.Machine
end

