-- ==== Sys2Proof/Safety.lean ====
section
/-! DEFINITION. What a good state is, in the terms the statements use: how a run has ended, and the invariant every step keeps. -/

namespace Sys2Proof.Machine

/-- The unit has stopped: no further cycle executes (40_cycle.md R88). -/
def State.stopped (s : State) : Bool := decide (s.rs ≠ .running)

/-- The run has ended well (40_cycle.md R93). -/
def State.endedWell (s : State) : Bool := decide (s.rs = .halted)

/-- The run has ended in error (40_cycle.md R93). -/
def State.endedInError (s : State) : Bool :=
  match s.rs with
  | .running => false
  | .halted => false
  | .faulted _ _ _ => true

/-- What the fault record says is true of the state it is found in (60_exceptions.md R181, R183, R185): the recorded address is the program
counter, the recorded opcode is the byte there, an `UnknownOpcode` names a byte that is not dispatched, and an `OutOfRangeAddress` a byte above 7
among the operands of a dispatched one. No other condition is a fault of a cycle (R184, R186, R182). -/
def State.faultRecordTrue (s : State) : Prop :=
  match s.rs with
  | .running => True
  | .halted => True
  | .faulted (.unknownOpcode b) p o => p = s.pc ∧ o = s.byteAt p ∧ b = o ∧ dispatch o = none
  | .faulted (.outOfRangeAddress k) p o =>
      p = s.pc ∧ o = s.byteAt p ∧ dispatch o ≠ none ∧ 8 ≤ k.toNat ∧ k ∈ s.operandBytes o
  | .faulted .divisionByZero _ _ => False
  | .faulted (.unsupportedALUOperation _) _ _ => False
  | .faulted (.programLoadError _) _ _ => False

/-- The invariant every step keeps. -/
structure State.Inv (s : State) : Prop where
  /-- Memory is in its canonical form: only addresses 0..255 (10_state.md R21). -/
  memory : s.mem.wf
  /-- The flags are mutually exclusive (10_state.md R16). -/
  flags : s.fl.atMostOne = true
  /-- A fault record is true (60_exceptions.md R185). -/
  fault : s.faultRecordTrue

end Sys2Proof.Machine
end

