-- ==== Sys2Proof/WellFormed.lean ====
section
/-! DEFINITION. Which instruction terms are legal: every operand that is a register index is one (30_encoding.md R63, R70). -/

namespace Sys2Proof

/-- The byte names a register: 0..7 (30_encoding.md R63). -/
def isRegisterIndex (o : Byte) : Bool := decide (o.toNat < Config.nreg)

/-- Every operand byte used as a register index is in range; LDI's second operand is an immediate and any byte will do
(40_cycle.md R84, the table). -/
def Instr.wf : Instr → Bool
  | .nop | .ret | .hlt => true
  | .ldi o1 _ | .prn o1 | .push o1 | .pop o1 | .call o1 => isRegisterIndex o1
  | .add o1 o2 | .mul o1 o2 | .cmp o1 o2 => isRegisterIndex o1 && isRegisterIndex o2

end Sys2Proof
end

