-- ==== Sys2Proof/Certificates/Slice0/Obligations.lean ====
section
/-! DEFINITION. The statements for the provers. Where a statement rests on a decision of the spec (92_eei_decisions.md) or on a log entry, its
docstring says which. `regOperand r` is the operand byte of register `r` (0..7), so a statement over all `r` covers every legal operand. -/

open Sys2Proof Sys2Proof.Machine

/-! ### Encoding -/

/-- Decode and encode agree in both directions, for every instruction, every operand byte and whatever bytes follow. -/
def Obligations.DecodeReturnsExactlyWhatEncodeWrote : Prop :=
  ∀ (bytes rest : List Byte) (i : Instr), decode bytes = .instr i rest ↔ bytes = encode i ++ rest

/-- The eleven forms, each byte written out from the encoding table. Seven of the bytes are the spec's decision D3 (log 3). -/
def Obligations.WrittenOutWordsDecode : Prop :=
  decode [0b00000000#8] = .instr .nop [] ∧
  decode [0b10000010#8, 0b00000000#8, 0b00001000#8] = .instr (.ldi 0 8) [] ∧
  decode [0b01000111#8, 0b00000001#8] = .instr (.prn 1) [] ∧
  decode [0b10100000#8, 0b00000010#8, 0b00000011#8] = .instr (.add 2 3) [] ∧
  decode [0b10100010#8, 0b00000100#8, 0b00000101#8] = .instr (.mul 4 5) [] ∧
  decode [0b10100111#8, 0b00000110#8, 0b00000111#8] = .instr (.cmp 6 7) [] ∧
  decode [0b01000101#8, 0b00000111#8] = .instr (.push 7) [] ∧
  decode [0b01000110#8, 0b00000110#8] = .instr (.pop 6) [] ∧
  decode [0b01010000#8, 0b00000101#8] = .instr (.call 5) [] ∧
  decode [0b00010001#8] = .instr .ret [] ∧
  decode [0b00000001#8] = .instr .hlt []

/-- A byte is rejected, by name and with the byte, exactly when it is none of the eleven; every byte with top bits 0b11 is; 245 are. The
list of bytes holds the spec's decision D3 (log 3) and D15 (log 15). -/
def Obligations.UndispatchedOpcodesAreRejected : Prop :=
  (∀ (op : Byte) (rest : List Byte), decode (op :: rest) = .unknownOpcode op ↔
    op ∉ [0x00#8, 0x82#8, 0x47#8, 0xA0#8, 0xA2#8, 0xA7#8, 0x45#8, 0x46#8, 0x50#8, 0x11#8, 0x01#8]) ∧
  (∀ (op : Byte) (rest : List Byte), 0xC0 ≤ op.toNat → decode (op :: rest) = .unknownOpcode op) ∧
  ((List.range 256).filter fun n => decide (dispatch (BitVec.ofNat 8 n) = none)).length = 245

/-- The length of an instruction is 1 + bits 7:6 of its opcode, at most 3, from the opcode alone; an undispatched byte is refused whatever follows,
no operand of it is read, and the program counter does not advance. -/
def Obligations.InstructionLengthIsReadFromTheOpcode : Prop :=
  (∀ (op : Byte) (bytes rest : List Byte) (i : Instr), decode (op :: bytes) = .instr i rest →
    (op :: bytes).length = (1 + op.toNat / 64) + rest.length ∧ 1 + op.toNat / 64 ≤ 3) ∧
  (∀ (op : Byte) (bytes : List Byte), dispatch op = none → decode (op :: bytes) = .unknownOpcode op) ∧
  (∀ s : State, s.rs = .running → dispatch (s.byteAt s.pc) = none →
    s.fetchBytes = [s.byteAt s.pc] ∧ ∃ t, step s = .next t ∧ t.pc = s.pc)

/-! ### The step -/

/-- A step runs the instruction its bytes decode to: the byte at the program counter and the two after it, addresses wrapping. Nothing is added
around `exec`: the advance of the program counter is part of it. -/
def Obligations.StepRunsTheDecodedInstruction : Prop :=
  ∀ (s : State) (i : Instr) (rest : List Byte), s.rs = .running →
    decode [s.byteAt s.pc, s.byteAt (s.pc + 1), s.byteAt (s.pc + 2)] = .instr i rest →
    step s = exec i s

/-- An instruction whose encoding lies at the program counter and on, addresses modulo 256, is what the step runs, wherever its own stores go.
The wrap and the latch are decisions D2 and D9 (logs 2, 9). -/
def Obligations.InstructionInMemoryRuns : Prop :=
  ∀ (s : State) (i : Instr), s.rs = .running →
    (∀ (k : Nat) (h : k < (encode i).length), s.byteAt (s.pc + BitVec.ofNat 8 k) = (encode i)[k]) →
    step s = exec i s

/-- A byte that is not dispatched stops the unit with `UnknownOpcode` of that byte, at its address, and nothing else changes; no operand is read.
That the stop is a state of its own is decision D13 (log 13). -/
def Obligations.UndispatchedByteFaultsTheUnit : Prop :=
  (∀ s : State, s.rs = .running → dispatch (s.byteAt s.pc) = none →
    s.fetchBytes = [s.byteAt s.pc] ∧
    step s = .next { s with rs := .faulted (.unknownOpcode (s.byteAt s.pc)) s.pc (s.byteAt s.pc) }) ∧
  dispatch 0xFF#8 = none

/-- A stopped unit never moves again, by a step, by a bounded run, or by the host's own runner (decision D18, log 18). -/
def Obligations.StoppedUnitNeverMoves : Prop :=
  ∀ (s : State) (k : Nat), s.rs ≠ .running →
    step s = .next s ∧ runFor k s = s ∧ Host.Core.run Sys2Proof.core k s = .next s

/-- No step and no instruction ends in anything but a next state: an error is a state of the unit, never an abort (D13, log 13). -/
def Obligations.NoStepAborts : Prop :=
  (∀ (i : Instr) (s : State), ∃ t, exec i s = .next t) ∧
  (∀ s : State, ∃ t, step s = .next t) ∧
  (∀ (k : Nat) (s : State), Host.Core.run Sys2Proof.core k s = .next (runFor k s))

/-- After decode has passed every instruction runs to completion: the run state is as before, and Halted after HLT. -/
def Obligations.WellFormedInstructionsComplete : Prop :=
  ∀ (i : Instr) (s : State), i.wf = true →
    ∃ t, exec i s = .next t ∧ t.rs = if i = .hlt then .halted else s.rs

/-- Faults are precise and come from decode only: a cycle that ends Faulted has changed nothing but the run state, records the address and the
opcode it fetched, and names an undispatched byte or a register operand above 7; so never a division by zero or an unknown ALU kind
(decisions D9, D13, D15; logs 9, 13, 15). -/
def Obligations.FaultsArePreciseAndFromDecode : Prop :=
  ∀ (s t : State) (e : ErrorCondition) (p o : Byte), s.rs = .running → step s = .next t → t.rs = .faulted e p o →
    t = { s with rs := .faulted e p o } ∧ p = s.pc ∧ o = s.byteAt s.pc ∧
    ((e = .unknownOpcode o ∧ dispatch o = none) ∨
     (dispatch o ≠ none ∧ ∃ k ∈ s.operandBytes o, 8 ≤ k.toNat ∧ e = .outOfRangeAddress k))

/-- The invariant every step keeps, from every state that meets it: canonical memory (log 28), exclusive flags, a true fault record. -/
def Obligations.StepKeepsInvariant : Prop :=
  ∀ s t : State, s.Inv → step s = .next t → t.Inv

/-- The invariant holds after reset. -/
def Obligations.ResetMeetsInvariant : Prop := State.reset.Inv

/-- The state after reset. The flags and the run state are the source's; the stack pointer's 0xF4, the zeros and the empty output are decisions
D1, D5, D6, D7, D17 (logs 1, 5, 6, 7, 17). -/
def Obligations.ResetStateAsSpecified : Prop :=
  (∀ r : Reg, State.reset.reg r = if r = 7 then 0xF4#8 else 0x00#8) ∧ State.reset.pc = 0x00#8 ∧
  State.reset.fl = { equal := false, less := false, greater := false } ∧ State.reset.rs = .running ∧
  (∀ a : Byte, State.reset.byteAt a = 0x00#8) ∧ State.reset.out = []

/-- A run that has stopped keeps its verdict whatever further cycles the host asks for. -/
def Obligations.FinishedRunKeepsItsState : Prop :=
  ∀ (s : State) (j k : Nat), (runFor j s).rs ≠ .running → runFor (j + k) s = runFor j s

/-- In all-zero memory the unit executes NOPs for ever and the program counter goes round (decision D3 for the NOP byte, log 3). -/
def Obligations.ZeroMemoryRunsNops : Prop :=
  ∀ (s : State) (k : Nat), s.rs = .running → (∀ a : Byte, s.byteAt a = 0) →
    runFor k s = { s with pc := s.pc + BitVec.ofNat 8 k }

/-! ### Register operands out of range (decisions D3, D8, D9, D13, D14; logs 3, 8, 9, 13, 14) -/

/-- A first operand above 7 stops each of the eight instructions that have a register operand, before any effect, with that whole byte reported. The
reported opcode bytes of MUL, CMP, PUSH, POP and CALL (0xA2, 0xA7, 0x45, 0x46, 0x50) are decision D3 (log 3, PRESUMED); that a bad first operand is
reported whatever the second operand is, is decision D14 (log 14); the whole byte, the time of the check and the state it leaves are D8, D9 and D13
(logs 8, 9, 13). -/
def Obligations.FirstOperandAboveSevenFaults : Prop :=
  ∀ (o o2 : Byte) (s : State), 8 ≤ o.toNat →
    exec (.ldi o o2) s = .next { s with rs := .faulted (.outOfRangeAddress o) s.pc 0x82#8 } ∧
    exec (.prn o) s = .next { s with rs := .faulted (.outOfRangeAddress o) s.pc 0x47#8 } ∧
    exec (.add o o2) s = .next { s with rs := .faulted (.outOfRangeAddress o) s.pc 0xA0#8 } ∧
    exec (.mul o o2) s = .next { s with rs := .faulted (.outOfRangeAddress o) s.pc 0xA2#8 } ∧
    exec (.cmp o o2) s = .next { s with rs := .faulted (.outOfRangeAddress o) s.pc 0xA7#8 } ∧
    exec (.push o) s = .next { s with rs := .faulted (.outOfRangeAddress o) s.pc 0x45#8 } ∧
    exec (.pop o) s = .next { s with rs := .faulted (.outOfRangeAddress o) s.pc 0x46#8 } ∧
    exec (.call o) s = .next { s with rs := .faulted (.outOfRangeAddress o) s.pc 0x50#8 }

/-- With a first operand in range, a second one above 7 stops ADD, MUL and CMP, before any effect. The reported opcode bytes of MUL and CMP (0xA2,
0xA7) are decision D3 (log 3, PRESUMED); the whole byte, the time and order of the check and the state it leaves are D8, D9, D14 and D13 (logs 8, 9,
14, 13). -/
def Obligations.SecondOperandAboveSevenFaults : Prop :=
  ∀ (r : Reg) (o : Byte) (s : State), 8 ≤ o.toNat →
    exec (.add (regOperand r) o) s = .next { s with rs := .faulted (.outOfRangeAddress o) s.pc 0xA0#8 } ∧
    exec (.mul (regOperand r) o) s = .next { s with rs := .faulted (.outOfRangeAddress o) s.pc 0xA2#8 } ∧
    exec (.cmp (regOperand r) o) s = .next { s with rs := .faulted (.outOfRangeAddress o) s.pc 0xA7#8 }

/-! ### The instructions: result, completion and frame -/

/-- NOP completes in every state and only moves the program counter. -/
def Obligations.NopOnlyAdvances : Prop :=
  ∀ s : State, ∃ t, exec .nop s = .next t ∧ t.pc = s.pc + 1 ∧
    (∀ k : Reg, t.reg k = s.reg k) ∧ t.fl = s.fl ∧ t.rs = s.rs ∧ t.out = s.out ∧ ∀ a : Byte, t.byteAt a = s.byteAt a

/-- LDI, whole: its encoding, its effect and frame, its error, and that PRN of the same register then emits the value. -/
def Obligations.LdiLoadsTheImmediate : Prop :=
  (∀ (rr vv : Byte) (rest : List Byte), decode (0x82#8 :: rr :: vv :: rest) = .instr (.ldi rr vv) rest) ∧
  (∀ (r : Reg) (v : Byte) (s : State), ∃ t, exec (.ldi (regOperand r) v) s = .next t ∧
    t.reg r = v ∧ (∀ k : Reg, k ≠ r → t.reg k = s.reg k) ∧ t.pc = s.pc + 3 ∧
    t.fl = s.fl ∧ t.rs = s.rs ∧ t.out = s.out ∧ ∀ a : Byte, t.byteAt a = s.byteAt a) ∧
  (∀ (o v : Byte) (s : State), 8 ≤ o.toNat →
    exec (.ldi o v) s = .next { s with rs := .faulted (.outOfRangeAddress o) s.pc 0x82#8 }) ∧
  (∀ (r : Reg) (v : Byte) (s : State), ∃ t u, exec (.ldi (regOperand r) v) s = .next t ∧
    exec (.prn (regOperand r)) t = .next u ∧ u.out = s.out ++ [v])

/-- PRN completes, appends the register to the output and leaves everything else (that emission cannot fail is decision D17, log 17). -/
def Obligations.PrnEmitsTheRegister : Prop :=
  ∀ (r : Reg) (s : State), ∃ t, exec (.prn (regOperand r)) s = .next t ∧
    t.out = s.out ++ [s.reg r] ∧ t.pc = s.pc + 2 ∧
    (∀ k : Reg, t.reg k = s.reg k) ∧ t.fl = s.fl ∧ t.rs = s.rs ∧ ∀ a : Byte, t.byteAt a = s.byteAt a

/-- ADD, whole: its encoding, the wrapped sum in the first register and the frame, and its errors, the first operand reported before the second. -/
def Obligations.AddWritesTheWrappedSum : Prop :=
  (∀ (aa bb : Byte) (rest : List Byte), decode (0xA0#8 :: aa :: bb :: rest) = .instr (.add aa bb) rest) ∧
  (∀ (a b : Reg) (s : State), ∃ t, exec (.add (regOperand a) (regOperand b)) s = .next t ∧
    (t.reg a).toNat = ((s.reg a).toNat + (s.reg b).toNat) % 256 ∧
    alu .add (s.reg a) (s.reg b) = .value (t.reg a) ∧ (∀ k : Reg, k ≠ a → t.reg k = s.reg k) ∧
    t.pc = s.pc + 3 ∧ t.fl = s.fl ∧ t.rs = s.rs ∧ t.out = s.out ∧ ∀ m : Byte, t.byteAt m = s.byteAt m) ∧
  (∀ (o1 o2 : Byte) (s : State), 8 ≤ o1.toNat →
    exec (.add o1 o2) s = .next { s with rs := .faulted (.outOfRangeAddress o1) s.pc 0xA0#8 }) ∧
  (∀ (r : Reg) (o2 : Byte) (s : State), 8 ≤ o2.toNat →
    exec (.add (regOperand r) o2) s = .next { s with rs := .faulted (.outOfRangeAddress o2) s.pc 0xA0#8 })

/-- MUL completes, leaves the low byte of the product in the first register and everything else as it was. -/
def Obligations.MulWritesTheWrappedProduct : Prop :=
  ∀ (a b : Reg) (s : State), ∃ t, exec (.mul (regOperand a) (regOperand b)) s = .next t ∧
    (t.reg a).toNat = ((s.reg a).toNat * (s.reg b).toNat) % 256 ∧ (∀ k : Reg, k ≠ a → t.reg k = s.reg k) ∧
    t.pc = s.pc + 3 ∧ t.fl = s.fl ∧ t.rs = s.rs ∧ t.out = s.out ∧ ∀ m : Byte, t.byteAt m = s.byteAt m

/-- CMP completes and writes all three flags by the unsigned order of the two registers, and no register, cell or output. -/
def Obligations.CmpWritesTheFlagsByUnsignedOrder : Prop :=
  ∀ (a b : Reg) (s : State), ∃ t, exec (.cmp (regOperand a) (regOperand b)) s = .next t ∧
    (t.fl.equal = true ↔ (s.reg a).toNat = (s.reg b).toNat) ∧
    (t.fl.less = true ↔ (s.reg a).toNat < (s.reg b).toNat) ∧
    (t.fl.greater = true ↔ (s.reg b).toNat < (s.reg a).toNat) ∧
    (∀ k : Reg, t.reg k = s.reg k) ∧
    t.pc = s.pc + 3 ∧ t.rs = s.rs ∧ t.out = s.out ∧ ∀ m : Byte, t.byteAt m = s.byteAt m

/-- PUSH completes: the cell at the stack pointer takes the register (for PUSH R7 the stack pointer before the decrement), then the stack pointer
goes down by one; no other cell and no other register changes. -/
def Obligations.PushStoresThenDecrements : Prop :=
  ∀ (r : Reg) (s : State), ∃ t, exec (.push (regOperand r)) s = .next t ∧
    (∀ a : Byte, t.byteAt a = if a = s.sp then s.reg r else s.byteAt a) ∧
    t.sp = s.sp - 1 ∧ (∀ k : Reg, k ≠ 7 → t.reg k = s.reg k) ∧
    t.pc = s.pc + 2 ∧ t.fl = s.fl ∧ t.rs = s.rs ∧ t.out = s.out

/-- POP completes, for every register: the popped byte is read above the stack pointer; the cell cleared is that one, except for POP R7, where it is
the cell the popped value names (decision D10, log 10). -/
def Obligations.PopIncrementsReadsAndClears : Prop :=
  ∀ (r : Reg) (s : State), ∃ t, exec (.pop (regOperand r)) s = .next t ∧
    t.reg r = s.byteAt (s.sp + 1) ∧ (r ≠ 7 → t.sp = s.sp + 1) ∧
    (∀ k : Reg, k ≠ r → k ≠ 7 → t.reg k = s.reg k) ∧
    (∀ a : Byte, t.byteAt a =
      if a = (if r = 7 then s.byteAt (s.sp + 1) else s.sp + 1) then 0 else s.byteAt a) ∧
    t.pc = s.pc + 2 ∧ t.fl = s.fl ∧ t.rs = s.rs ∧ t.out = s.out

/-- CALL completes, for every register: the return address goes to the cell at the stack pointer, the stack pointer goes down, and the program
counter takes the register as the push left it, so for CALL R7 the decremented stack pointer (decision D10, log 10). -/
def Obligations.CallPushesTheReturnAddress : Prop :=
  ∀ (r : Reg) (s : State), ∃ t, exec (.call (regOperand r)) s = .next t ∧
    (∀ a : Byte, t.byteAt a = if a = s.sp then s.pc + 2 else s.byteAt a) ∧
    t.sp = s.sp - 1 ∧ (∀ k : Reg, k ≠ 7 → t.reg k = s.reg k) ∧
    t.pc = (if r = 7 then s.sp - 1 else s.reg r) ∧ t.fl = s.fl ∧ t.rs = s.rs ∧ t.out = s.out

/-- RET completes: the program counter takes the byte above the stack pointer, which goes up by one, and that cell is cleared (decision D11, log 11). -/
def Obligations.RetPopsIntoTheProgramCounter : Prop :=
  ∀ s : State, ∃ t, exec .ret s = .next t ∧
    t.pc = s.byteAt (s.sp + 1) ∧ t.sp = s.sp + 1 ∧ (∀ k : Reg, k ≠ 7 → t.reg k = s.reg k) ∧
    (∀ a : Byte, t.byteAt a = if a = s.sp + 1 then 0 else s.byteAt a) ∧
    t.fl = s.fl ∧ t.rs = s.rs ∧ t.out = s.out

/-- HLT completes: Halted, the program counter one past it (decision D12, log 12), everything else as it was. -/
def Obligations.HltHalts : Prop :=
  ∀ s : State, ∃ t, exec .hlt s = .next t ∧ t.rs = .halted ∧ t.pc = s.pc + 1 ∧
    (∀ k : Reg, t.reg k = s.reg k) ∧ t.fl = s.fl ∧ t.out = s.out ∧ ∀ a : Byte, t.byteAt a = s.byteAt a

/-! ### Whole-machine rules -/

/-- The advance is by membership in {CALL, RET}: every other instruction ends at p + 1 + n modulo 256; after CALL the program counter is the register's
value, even where that is CALL's own address, and after RET the popped byte. That the value is the register's as the push left it, which shows only
for CALL R7, is decision D10 (log 10); that HLT too is advanced is decision D12 (log 12). -/
def Obligations.OnlyCallAndRetEscapeTheAdvance : Prop :=
  (∀ (i : Instr) (s : State), i.wf = true → (∀ o, i ≠ .call o) → i ≠ .ret →
    ∃ t, exec i s = .next t ∧ t.pc.toNat = (s.pc.toNat + 1 + i.opcode.toNat / 64) % 256) ∧
  (∀ (r : Reg) (s : State), ∃ t, exec (.call (regOperand r)) s = .next t ∧ t.pc = t.reg r) ∧
  (∀ s : State, ∃ t, exec .ret s = .next t ∧ t.pc = s.byteAt (s.sp + 1))

/-- The flags field: exactly four values have at most one flag set; all are clear after reset; CMP sets exactly one; no step sets a second one; and once
one is set, no step of any instruction clears all three again. -/
def Obligations.FlagsAreExclusiveAndNeverCleared : Prop :=
  (∀ f : Flags, f.atMostOne = true ↔ f = Flags.clear ∨ ∃ c, f = Flags.ofOutcome c) ∧
  State.reset.fl = Flags.clear ∧
  (∀ (a b : Reg) (s : State), ∃ t c, exec (.cmp (regOperand a) (regOperand b)) s = .next t ∧ t.fl = Flags.ofOutcome c) ∧
  (∀ c : CompareOutcome, (Flags.ofOutcome c).equal = decide (c = .equal) ∧ (Flags.ofOutcome c).less = decide (c = .less) ∧
    (Flags.ofOutcome c).greater = decide (c = .greater)) ∧
  (∀ s t : State, step s = .next t → s.fl.atMostOne = true → t.fl.atMostOne = true) ∧
  (∀ s t : State, step s = .next t → s.fl ≠ Flags.clear → t.fl ≠ Flags.clear)

/-- No instruction but CMP changes the flags. -/
def Obligations.OnlyCmpWritesTheFlags : Prop :=
  ∀ (i : Instr) (s t : State), exec i s = .next t → (∀ a b : Byte, i ≠ .cmp a b) → t.fl = s.fl

/-- Only PRN adds to the output, no step removes from it, and a step adds at most one byte (decision D17 for the channel, log 17). -/
def Obligations.OutputOnlyGrowsAndOnlyByPrn : Prop :=
  (∀ (i : Instr) (s t : State), exec i s = .next t → (∀ o : Byte, i ≠ .prn o) → t.out = s.out) ∧
  (∀ s t : State, step s = .next t → t.out = s.out ∨ ∃ r : Reg, t.out = s.out ++ [s.reg r])

/-- A running unit halts in a step exactly when the byte at the program counter is HLT's 0x01 (Halted apart from Faulted: D13, log 13). -/
def Obligations.HaltedOnlyByHlt : Prop :=
  ∀ s t : State, s.rs = .running → step s = .next t → (t.rs = .halted ↔ s.byteAt s.pc = 0x01#8)

/-- No instruction but PUSH, POP, CALL and RET changes any byte of memory. -/
def Obligations.OnlyStackInstructionsWriteMemory : Prop :=
  ∀ (i : Instr) (s t : State), exec i s = .next t →
    (∀ o : Byte, i ≠ .push o ∧ i ≠ .pop o ∧ i ≠ .call o) → i ≠ .ret → ∀ a : Byte, t.byteAt a = s.byteAt a

/-- A register that an instruction changes is the first operand of LDI, ADD, MUL or POP, or it is register 7 and the instruction uses the stack. -/
def Obligations.OnlyDestinationsAndTheStackPointerChange : Prop :=
  ∀ (i : Instr) (s t : State) (k : Reg), exec i s = .next t → t.reg k ≠ s.reg k →
    (∃ o : Byte, i = .ldi (regOperand k) o ∨ i = .add (regOperand k) o ∨ i = .mul (regOperand k) o ∨ i = .pop (regOperand k)) ∨
    (k = 7 ∧ (i = .ret ∨ ∃ o : Byte, i = .push o ∨ i = .pop o ∨ i = .call o))

/-- PUSH r then POP r restores every register, for every r, R7 included, and leaves 0 in the cell that held the pushed byte. -/
def Obligations.PushThenPopRestores : Prop :=
  ∀ (r : Reg) (s : State), ∃ t u, exec (.push (regOperand r)) s = .next t ∧ exec (.pop (regOperand r)) t = .next u ∧
    (∀ k : Reg, u.reg k = s.reg k) ∧ ∀ a : Byte, u.byteAt a = if a = s.sp then 0 else s.byteAt a

/-- A RET executed with the stack pointer and the return-address cell as the CALL left them returns to the call's address + 2 and to its stack pointer. -/
def Obligations.CallThenBalancedRetReturns : Prop :=
  ∀ (r : Reg) (s t u : State), exec (.call (regOperand r)) s = .next t → u.sp = t.sp → u.byteAt s.sp = t.byteAt s.sp →
    ∃ w, exec .ret u = .next w ∧ w.pc = s.pc + 2 ∧ w.sp = s.sp

/-- After HLT nothing executes any more, whatever memory then holds. -/
def Obligations.HltStopsForAnyMemory : Prop :=
  ∀ (s : State) (m : Memory) (k : Nat), ∃ t, exec .hlt s = .next t ∧
    step { t with mem := m } = .next { t with mem := m } ∧ runFor k { t with mem := m } = { t with mem := m }

/-- A byte stored by PUSH is what a later fetch from that cell takes as its opcode: stores to code need no fence. -/
def Obligations.StoredCodeByteIsFetched : Prop :=
  ∀ (r : Reg) (s : State), ∃ t, exec (.push (regOperand r)) s = .next t ∧
    ({ t with pc := s.sp } : State).fetchBytes.head? = some (s.reg r)

/-! ### The ALU -/

/-- ADD and MUL of the ALU wrap modulo 256 for every pair, with no error, and are what the two instructions deliver. -/
def Obligations.AluAddAndMulWrap : Prop :=
  (∀ a b : Byte, ∃ v, alu .add a b = .value v ∧ v.toNat = (a.toNat + b.toNat) % 256) ∧
  (∀ a b : Byte, ∃ v, alu .mul a b = .value v ∧ v.toNat = (a.toNat * b.toNat) % 256) ∧
  (∀ (a b : Reg) (s : State), ∃ t, exec (.add (regOperand a) (regOperand b)) s = .next t ∧
    alu .add (s.reg a) (s.reg b) = .value (t.reg a)) ∧
  (∀ (a b : Reg) (s : State), ∃ t, exec (.mul (regOperand a) (regOperand b)) s = .next t ∧
    alu .mul (s.reg a) (s.reg b) = .value (t.reg a))

/-- CMP of the ALU answers exactly one outcome, by the unsigned order, a tie going to Equal; the CMP instruction writes it to the flags and no register. -/
def Obligations.AluComparesUnsigned : Prop :=
  (∀ a b : Byte, ∃ c, alu .cmp a b = .compare c ∧
    (c = .equal ↔ a.toNat = b.toNat) ∧ (c = .less ↔ a.toNat < b.toNat) ∧ (c = .greater ↔ b.toNat < a.toNat)) ∧
  (∀ (a b : Reg) (s : State), ∃ t c, exec (.cmp (regOperand a) (regOperand b)) s = .next t ∧
    alu .cmp (s.reg a) (s.reg b) = .compare c ∧ t.fl = Flags.ofOutcome c ∧ ∀ k : Reg, t.reg k = s.reg k)

/-- INC, DEC and SUB of the ALU wrap modulo 256; INC and DEC ignore the second value. -/
def Obligations.AluIncDecSubWrap : Prop :=
  ∀ a b : Byte,
    (∃ v, alu .inc a b = .value v ∧ v.toNat = (a.toNat + 1) % 256) ∧
    (∃ v, alu .dec a b = .value v ∧ (v.toNat : Int) = ((a.toNat : Int) - 1) % 256) ∧
    (∃ v, alu .sub a b = .value v ∧ (v.toNat : Int) = ((a.toNat : Int) - b.toNat) % 256)

/-- DIV and MOD of the ALU: `DivisionByZero` for a zero divisor, else the floor quotient and the remainder below the divisor (decision D16, log 16). -/
def Obligations.AluDivModOrDivisionByZero : Prop :=
  (∀ a : Byte, alu .div a 0 = .error .divisionByZero ∧ alu .mod a 0 = .error .divisionByZero) ∧
  (∀ a b : Byte, b ≠ 0 → ∃ q r, alu .div a b = .value q ∧ alu .mod a b = .value r ∧
    a.toNat = b.toNat * q.toNat + r.toNat ∧ r.toNat < b.toNat)

/-- The arithmetic kinds give no comparison outcome and their delivery leaves the flags; CMP gives only one and its delivery leaves every register. -/
def Obligations.ArithmeticKindsLeaveTheFlags : Prop :=
  (∀ (k : AluKind) (a b : Byte), k ≠ .cmp → ∀ c, alu k a b ≠ .compare c) ∧
  (∀ (k : AluKind) (a b : Byte) (d : Reg) (s t : State), k ≠ .cmp →
    (deliver d (alu k a b) s = .done t ∨ ∃ e, deliver d (alu k a b) s = .raised e t) → t.fl = s.fl) ∧
  (∀ (a b : Byte) (d : Reg) (s : State), ∃ c t, alu .cmp a b = .compare c ∧ deliver d (alu .cmp a b) s = .done t ∧
    t.fl = Flags.ofOutcome c ∧ ∀ r : Reg, t.reg r = s.reg r)

/-- An error of the ALU, a zero divisor or an unrecognised kind, would stop the unit with the destination unwritten (decisions D13, D16, D23;
logs 13, 16, 23). No instruction reaches it. -/
def Obligations.AluErrorsWriteNothing : Prop :=
  (∀ (k : Nat) (a b : Byte), aluApply (.unrecognised k) a b = .error (.unsupportedALUOperation k)) ∧
  (∀ (op : Byte) (d : Reg) (e : ErrorCondition) (s : State),
    execute op (deliver d (.error e)) s = .next { s with rs := .faulted e s.pc op })

/-! ### Memory and registers as arrays -/

/-- The two primitives of memory and of the register file: a write sets the named cell and changes nothing else, neither another cell, nor the other
array, nor any other state. -/
def Obligations.WritesAreLimitedToTheNamedCell : Prop :=
  (∀ (s : State) (a v b : Byte), (s.storeByte a v).byteAt b = if b = a then v else s.byteAt b) ∧
  (∀ (s : State) (a v : Byte) (k : Reg), (s.storeByte a v).reg k = s.reg k) ∧
  (∀ (s : State) (r k : Reg) (v : Byte), (s.setReg r v).reg k = if k = r then v else s.reg k) ∧
  (∀ (s : State) (r : Reg) (v b : Byte), (s.setReg r v).byteAt b = s.byteAt b) ∧
  (∀ (s : State) (r : Reg) (a v : Byte), (s.storeByte a v).pc = s.pc ∧ (s.storeByte a v).fl = s.fl ∧
    (s.storeByte a v).rs = s.rs ∧ (s.storeByte a v).out = s.out ∧ (s.setReg r v).pc = s.pc ∧
    (s.setReg r v).fl = s.fl ∧ (s.setReg r v).rs = s.rs ∧ (s.setReg r v).out = s.out)

/-- Two memories in canonical form that read alike at every address are the same data (log 28). -/
def Obligations.MemoriesThatReadAlikeAreEqual : Prop :=
  ∀ m n : Memory, m.wf → n.wf → (∀ a : Byte, m.read a.toNat = n.read a.toNat) → m = n

/-! ### The host's load -/

/-- An image that fits is copied to ascending addresses and changes only its cells; one that does not fit is rejected whole (decision D19, log 19). -/
def Obligations.LoadCopiesWhatFits : Prop :=
  (∀ (bytes : List Byte) (start : Byte) (s : State), start.toNat + bytes.length ≤ 256 →
    ∃ t, load bytes start s = .loaded t ∧
      (∀ (k : Nat) (h : k < bytes.length), t.byteAt (start + BitVec.ofNat 8 k) = bytes[k]) ∧
      (∀ a : Byte, a.toNat < start.toNat ∨ start.toNat + bytes.length ≤ a.toNat → t.byteAt a = s.byteAt a) ∧
      t.x = s.x ∧ t.pc = s.pc ∧ t.fl = s.fl ∧ t.rs = s.rs ∧ t.out = s.out ∧ (s.mem.wf → t.mem.wf)) ∧
  (∀ (bytes : List Byte) (start : Byte) (s : State), 256 < start.toNat + bytes.length →
    ∃ reason, load bytes start s = .failed (.programLoadError reason))
end

