-- ==== Sys2Proof/Laws/Decode.lean ====
section
/-! SUPPORT. What the decoder answers, said once per opcode byte. -/

namespace Sys2Proof

variable (o1 o2 : Byte) (rest : List Byte)

theorem dispatch_nop : dispatch opcNop = some .nop := by decide
theorem dispatch_ldi : dispatch opcLdi = some .ldi := by decide
theorem dispatch_prn : dispatch opcPrn = some .prn := by decide
theorem dispatch_add : dispatch opcAdd = some .add := by decide
theorem dispatch_mul : dispatch opcMul = some .mul := by decide
theorem dispatch_cmp : dispatch opcCmp = some .cmp := by decide
theorem dispatch_push : dispatch opcPush = some .push := by decide
theorem dispatch_pop : dispatch opcPop = some .pop := by decide
theorem dispatch_call : dispatch opcCall = some .call := by decide
theorem dispatch_ret : dispatch opcRet = some .ret := by decide
theorem dispatch_hlt : dispatch opcHlt = some .hlt := by decide

/-- Every instruction's own opcode byte is dispatched (30_encoding.md R66). -/
theorem dispatch_opcode_ne_none (i : Instr) : dispatch i.opcode ≠ none := by
  cases i <;> simp only [Instr.opcode] <;> decide

/-- A dispatched byte is one of the eleven (30_encoding.md R66). -/
theorem opcode_of_dispatch {op : Byte} {h : Handler} (e : dispatch op = some h) :
    (op, h) ∈ dispatchTable := by
  revert e
  have key : ∀ op : Byte, ∀ h ∈ [Handler.nop, .ldi, .prn, .add, .mul, .cmp, .push, .pop, .call, .ret, .hlt],
      dispatch op = some h → (op, h) ∈ dispatchTable := by decide
  exact key op h (by cases h <;> simp)

theorem decode_cons (op : Byte) (bytes : List Byte) :
    decode (op :: bytes) =
      (dispatch op).elim (.unknownOpcode op) (fun h => decodeOperands h bytes) := by
  simp only [decode]
  cases dispatch op <;> rfl

/-- Decoding the bytes of an instruction gives it back, with the bytes after it (one direction of "decode and encode agree"). -/
theorem decode_encode_append (i : Instr) : decode (encode i ++ rest) = .instr i rest := by
  cases i <;> rfl

/-- The decoder rejects a first byte as unknown exactly when it is not dispatched, whatever follows (30_encoding.md R68, R75). -/
theorem decode_eq_unknownOpcode_iff (op : Byte) : decode (op :: rest) = .unknownOpcode op ↔ dispatch op = none := by
  rw [decode_cons]
  cases e : dispatch op with
  | none => simp
  | some h =>
    simp only [Option.elim_some, reduceCtorEq, iff_false]
    cases h <;> simp only [decodeOperands] <;> (try unfold takeOne) <;> (try unfold takeTwo) <;>
      (try split) <;> simp

/-- An operand byte is a register index exactly when it is 0..7 (30_encoding.md R63). -/
theorem isRegisterIndex_iff (o : Byte) : isRegisterIndex o = true ↔ o.toNat < 8 := by
  simp [isRegisterIndex, Config.nreg]

/-- Bits 7:6 hold 0 to 3 (30_encoding.md R61). -/
theorem operandCount_le (op : Byte) : operandCount op ≤ 3 := by
  have := op.isLt
  unfold operandCount
  omega

/-- A dispatched byte has at most two operands (30_encoding.md R61: top bits 0b11 are in no row). -/
theorem operandCount_le_of_dispatch {op : Byte} (h : dispatch op ≠ none) : operandCount op ≤ 2 := by
  revert h
  have key : ∀ op : Byte, dispatch op ≠ none → operandCount op ≤ 2 := by decide
  exact key op

end Sys2Proof
end

