-- ==== Sys2Proof/Laws/State.lean ====
section
/-! SUPPORT. One lemma per field per update of State, each true by `rfl`, so that no proof unfolds a record update. -/

namespace Sys2Proof.Machine

variable (s : State)

/-! ### setReg -/

@[simp] theorem State.setReg_x (r : Reg) (v : Byte) : (s.setReg r v).x = s.x.set r v := rfl
@[simp] theorem State.setReg_pc (r : Reg) (v : Byte) : (s.setReg r v).pc = s.pc := rfl
@[simp] theorem State.setReg_fl (r : Reg) (v : Byte) : (s.setReg r v).fl = s.fl := rfl
@[simp] theorem State.setReg_mem (r : Reg) (v : Byte) : (s.setReg r v).mem = s.mem := rfl
@[simp] theorem State.setReg_rs (r : Reg) (v : Byte) : (s.setReg r v).rs = s.rs := rfl
@[simp] theorem State.setReg_out (r : Reg) (v : Byte) : (s.setReg r v).out = s.out := rfl
@[simp] theorem State.setReg_byteAt (r : Reg) (v : Byte) (k : Byte) : (s.setReg r v).byteAt k = s.byteAt k := rfl

/-! ### storeByte -/

@[simp] theorem State.storeByte_x (a v : Byte) : (s.storeByte a v).x = s.x := rfl
@[simp] theorem State.storeByte_pc (a v : Byte) : (s.storeByte a v).pc = s.pc := rfl
@[simp] theorem State.storeByte_fl (a v : Byte) : (s.storeByte a v).fl = s.fl := rfl
@[simp] theorem State.storeByte_mem (a v : Byte) : (s.storeByte a v).mem = s.mem.write a.toNat v := rfl
@[simp] theorem State.storeByte_rs (a v : Byte) : (s.storeByte a v).rs = s.rs := rfl
@[simp] theorem State.storeByte_out (a v : Byte) : (s.storeByte a v).out = s.out := rfl
@[simp] theorem State.storeByte_reg (a v : Byte) (k : Reg) : (s.storeByte a v).reg k = s.reg k := rfl
@[simp] theorem State.storeByte_sp (a v : Byte) : (s.storeByte a v).sp = s.sp := rfl

/-! ### setPc -/

@[simp] theorem State.setPc_x (t : Byte) : (s.setPc t).x = s.x := rfl
@[simp] theorem State.setPc_pc (t : Byte) : (s.setPc t).pc = t := rfl
@[simp] theorem State.setPc_fl (t : Byte) : (s.setPc t).fl = s.fl := rfl
@[simp] theorem State.setPc_mem (t : Byte) : (s.setPc t).mem = s.mem := rfl
@[simp] theorem State.setPc_rs (t : Byte) : (s.setPc t).rs = s.rs := rfl
@[simp] theorem State.setPc_out (t : Byte) : (s.setPc t).out = s.out := rfl
@[simp] theorem State.setPc_reg (t : Byte) (k : Reg) : (s.setPc t).reg k = s.reg k := rfl
@[simp] theorem State.setPc_sp (t : Byte) : (s.setPc t).sp = s.sp := rfl
@[simp] theorem State.setPc_byteAt (t : Byte) (k : Byte) : (s.setPc t).byteAt k = s.byteAt k := rfl

/-! ### setFlags -/

@[simp] theorem State.setFlags_x (c : CompareOutcome) : (s.setFlags c).x = s.x := rfl
@[simp] theorem State.setFlags_pc (c : CompareOutcome) : (s.setFlags c).pc = s.pc := rfl
@[simp] theorem State.setFlags_fl (c : CompareOutcome) : (s.setFlags c).fl = Flags.ofOutcome c := rfl
@[simp] theorem State.setFlags_mem (c : CompareOutcome) : (s.setFlags c).mem = s.mem := rfl
@[simp] theorem State.setFlags_rs (c : CompareOutcome) : (s.setFlags c).rs = s.rs := rfl
@[simp] theorem State.setFlags_out (c : CompareOutcome) : (s.setFlags c).out = s.out := rfl
@[simp] theorem State.setFlags_reg (c : CompareOutcome) (k : Reg) : (s.setFlags c).reg k = s.reg k := rfl
@[simp] theorem State.setFlags_sp (c : CompareOutcome) : (s.setFlags c).sp = s.sp := rfl
@[simp] theorem State.setFlags_byteAt (c : CompareOutcome) (k : Byte) : (s.setFlags c).byteAt k = s.byteAt k := rfl

/-! ### setRunState -/

@[simp] theorem State.setRunState_x (r : RunState) : (s.setRunState r).x = s.x := rfl
@[simp] theorem State.setRunState_pc (r : RunState) : (s.setRunState r).pc = s.pc := rfl
@[simp] theorem State.setRunState_fl (r : RunState) : (s.setRunState r).fl = s.fl := rfl
@[simp] theorem State.setRunState_mem (r : RunState) : (s.setRunState r).mem = s.mem := rfl
@[simp] theorem State.setRunState_rs (r : RunState) : (s.setRunState r).rs = r := rfl
@[simp] theorem State.setRunState_out (r : RunState) : (s.setRunState r).out = s.out := rfl
@[simp] theorem State.setRunState_reg (r : RunState) (k : Reg) : (s.setRunState r).reg k = s.reg k := rfl
@[simp] theorem State.setRunState_sp (r : RunState) : (s.setRunState r).sp = s.sp := rfl
@[simp] theorem State.setRunState_byteAt (r : RunState) (k : Byte) : (s.setRunState r).byteAt k = s.byteAt k := rfl

/-! ### emit -/

@[simp] theorem State.emit_x (v : Byte) : (s.emit v).x = s.x := rfl
@[simp] theorem State.emit_pc (v : Byte) : (s.emit v).pc = s.pc := rfl
@[simp] theorem State.emit_fl (v : Byte) : (s.emit v).fl = s.fl := rfl
@[simp] theorem State.emit_mem (v : Byte) : (s.emit v).mem = s.mem := rfl
@[simp] theorem State.emit_rs (v : Byte) : (s.emit v).rs = s.rs := rfl
@[simp] theorem State.emit_out (v : Byte) : (s.emit v).out = s.out ++ [v] := rfl
@[simp] theorem State.emit_reg (v : Byte) (k : Reg) : (s.emit v).reg k = s.reg k := rfl
@[simp] theorem State.emit_sp (v : Byte) : (s.emit v).sp = s.sp := rfl
@[simp] theorem State.emit_byteAt (v : Byte) (k : Byte) : (s.emit v).byteAt k = s.byteAt k := rfl

/-! ### enterFault -/

@[simp] theorem State.enterFault_x (e : ErrorCondition) (p op : Byte) : (s.enterFault e p op).x = s.x := rfl
@[simp] theorem State.enterFault_pc (e : ErrorCondition) (p op : Byte) : (s.enterFault e p op).pc = s.pc := rfl
@[simp] theorem State.enterFault_fl (e : ErrorCondition) (p op : Byte) : (s.enterFault e p op).fl = s.fl := rfl
@[simp] theorem State.enterFault_mem (e : ErrorCondition) (p op : Byte) : (s.enterFault e p op).mem = s.mem := rfl
@[simp] theorem State.enterFault_rs (e : ErrorCondition) (p op : Byte) : (s.enterFault e p op).rs = .faulted e p op := rfl
@[simp] theorem State.enterFault_out (e : ErrorCondition) (p op : Byte) : (s.enterFault e p op).out = s.out := rfl
@[simp] theorem State.enterFault_reg (e : ErrorCondition) (p op : Byte) (k : Reg) : (s.enterFault e p op).reg k = s.reg k := rfl
@[simp] theorem State.enterFault_sp (e : ErrorCondition) (p op : Byte) : (s.enterFault e p op).sp = s.sp := rfl
@[simp] theorem State.enterFault_byteAt (e : ErrorCondition) (p op : Byte) (k : Byte) : (s.enterFault e p op).byteAt k = s.byteAt k := rfl

/-! ### setSp, which is `setReg` of register 7 -/

@[simp] theorem State.setSp_pc (v : Byte) : (s.setSp v).pc = s.pc := rfl
@[simp] theorem State.setSp_fl (v : Byte) : (s.setSp v).fl = s.fl := rfl
@[simp] theorem State.setSp_mem (v : Byte) : (s.setSp v).mem = s.mem := rfl
@[simp] theorem State.setSp_rs (v : Byte) : (s.setSp v).rs = s.rs := rfl
@[simp] theorem State.setSp_out (v : Byte) : (s.setSp v).out = s.out := rfl
@[simp] theorem State.setSp_byteAt (v k : Byte) : (s.setSp v).byteAt k = s.byteAt k := rfl

/-! ### Reading a register after writing one -/

/-- A register reads as what was written to it, and as before if another one was written (10_state.md R11). -/
theorem State.setReg_reg (r k : Reg) (v : Byte) :
    (s.setReg r v).reg k = if r = k then v else s.reg k := by
  simp [State.reg, State.setReg, Vector.getElem_set, Fin.ext_iff]

@[simp] theorem State.setReg_reg_self (r : Reg) (v : Byte) : (s.setReg r v).reg r = v := by
  simp [State.setReg_reg]

/-- Writing the stack pointer is writing register 7 (10_state.md R12). -/
theorem State.setSp_reg (v : Byte) (k : Reg) :
    (s.setSp v).reg k = if k = Config.spIndex then v else s.reg k := by
  simp only [State.setSp, State.setReg_reg, eq_comm]

@[simp] theorem State.setSp_sp (v : Byte) : (s.setSp v).sp = v := by
  simp [State.sp, State.setSp]

theorem State.setReg_sp (r : Reg) (v : Byte) :
    (s.setReg r v).sp = if r = Config.spIndex then v else s.sp := by
  simp only [State.sp, State.setReg_reg]

/-- Two register files that read alike are equal. -/
theorem State.x_ext {s t : State} (h : ∀ r : Reg, s.reg r = t.reg r) : s.x = t.x := by
  apply Vector.ext
  intro i hi
  exact h ⟨i, hi⟩

end Sys2Proof.Machine
end

