-- ==== Sys2Proof/Laws/Memory.lean ====
section
/-! SUPPORT. The laws of memory: read after write, frame, and that every operation keeps the canonical form. -/

namespace Sys2Proof.Machine

@[simp] theorem Memory.read_nil (a : Nat) : Memory.read [] a = unlistedByte := rfl

theorem Memory.read_cons (c : Host.Cell) (m : Memory) (a : Nat) :
    Memory.read (c :: m) a = if c.1 = a then c.2 else Memory.read m a := rfl

theorem Memory.read_erase (m : Memory) (a b : Nat) :
    Memory.read (Memory.erase m a) b = if a = b then unlistedByte else Memory.read m b := by
  induction m with
  | nil => simp [Memory.erase]
  | cons c rest ih =>
    simp only [Memory.erase, List.filter_cons] at ih ⊢
    by_cases h : c.1 = a
    · by_cases hab : a = b <;> simp_all [Memory.read_cons]
    · by_cases hab : a = b <;> by_cases hc : c.1 = b <;> simp_all [Memory.read_cons]

theorem Memory.not_mem_erase (m : Memory) (a : Nat) : ∀ c ∈ Memory.erase m a, c.1 ≠ a := by
  intro c hc
  simpa [Memory.erase] using (List.mem_filter.mp hc).2

/-- Inserting a cell for an address without an entry: that address reads as it, the others as before. -/
theorem Memory.read_insert (m : Memory) (a : Nat) (v : Byte) (b : Nat) (h : ∀ c ∈ m, c.1 ≠ a) :
    Memory.read (Memory.insert a v m) b = if a = b then v else Memory.read m b := by
  induction m with
  | nil => simp [Memory.insert, Memory.read_cons]
  | cons c rest ih =>
    have hc : c.1 ≠ a := h c (by simp)
    have ih := ih fun d hd => h d (by simp [hd])
    simp only [Memory.insert]
    split
    · simp [Memory.read_cons]
    · simp only [Memory.read_cons, ih]
      by_cases hb : c.1 = b
      · simp [hb, show a ≠ b from fun e => hc (hb.trans e.symm)]
      · simp [hb]

/-- A read after a write (20_memory.md R40): the written byte at that address, the byte before at any other. -/
theorem Memory.read_write (m : Memory) (a : Nat) (v : Byte) (b : Nat) :
    Memory.read (Memory.write m a v) b = if a = b then v else Memory.read m b := by
  unfold Memory.write
  split
  · next h => simp [Memory.read_erase, h]
  · rw [Memory.read_insert _ _ _ _ (Memory.not_mem_erase m a), Memory.read_erase]
    split <;> simp_all

theorem Memory.erase_wf {m : Memory} (h : Memory.wf m) (a : Nat) : Memory.wf (Memory.erase m a) :=
  ⟨h.1.filter _, fun c hc => h.2 c (List.mem_filter.mp hc).1⟩

theorem Memory.mem_insert (m : Memory) (a : Nat) (v : Byte) (d : Host.Cell) :
    d ∈ Memory.insert a v m ↔ d = (a, v) ∨ d ∈ m := by
  induction m with
  | nil => simp [Memory.insert]
  | cons c rest ih =>
    simp only [Memory.insert]
    split
    · simp
    · simp only [List.mem_cons, ih]
      tauto

theorem Memory.insert_sorted {m : Memory} (h : m.Pairwise (fun c d => c.1 < d.1)) (a : Nat) (v : Byte)
    (hne : ∀ c ∈ m, c.1 ≠ a) : (Memory.insert a v m).Pairwise (fun c d => c.1 < d.1) := by
  induction m with
  | nil => simp [Memory.insert]
  | cons c rest ih =>
    obtain ⟨hc, hr⟩ := List.pairwise_cons.mp h
    simp only [Memory.insert]
    split
    · next hlt =>
      refine List.pairwise_cons.mpr ⟨fun d hd => ?_, h⟩
      rcases List.mem_cons.mp hd with rfl | hd
      · exact hlt
      · exact Nat.lt_trans hlt (hc d hd)
    · next hlt =>
      have hca : c.1 ≠ a := hne c (by simp)
      refine List.pairwise_cons.mpr ⟨fun d hd => ?_, ih hr fun d hd => hne d (by simp [hd])⟩
      rcases (Memory.mem_insert rest a v d).mp hd with rfl | hd
      · show c.1 < a
        omega
      · exact hc d hd

/-- Every write inside the address space keeps the canonical form. -/
theorem Memory.write_wf {m : Memory} (h : Memory.wf m) {a : Nat} (ha : a < Config.memSize) (v : Byte) :
    Memory.wf (Memory.write m a v) := by
  unfold Memory.write
  split
  · exact Memory.erase_wf h a
  · next hv =>
    have he := Memory.erase_wf h a
    refine ⟨Memory.insert_sorted he.1 a v (Memory.not_mem_erase m a), fun c hc => ?_⟩
    rcases (Memory.mem_insert _ a v c).mp hc with rfl | hc
    · exact ⟨ha, hv⟩
    · exact he.2 c hc

/-- Copying an image that fits keeps the canonical form (50_interfaces.md R162). -/
theorem Memory.copy_wf {m : Memory} (h : Memory.wf m) (a : Nat) (bytes : List Byte)
    (hfit : a + bytes.length ≤ Config.memSize) : Memory.wf (Memory.copy m a bytes) := by
  induction bytes generalizing m a with
  | nil => exact h
  | cons b rest ih =>
    simp only [List.length_cons] at hfit
    exact ih (Memory.write_wf h (by omega) b) (a + 1) (by omega)

/-- What an address reads as after an image is copied (50_interfaces.md R162). -/
theorem Memory.read_copy (bytes : List Byte) (m : Memory) (a b : Nat) :
    Memory.read (Memory.copy m a bytes) b =
      if h : a ≤ b ∧ b < a + bytes.length then bytes[b - a]'(by omega) else Memory.read m b := by
  induction bytes generalizing m a with
  | nil => simp [Memory.copy]
  | cons x rest ih =>
    simp only [Memory.copy, ih, Memory.read_write]
    by_cases h1 : a = b
    · subst h1; simp
    · by_cases h2 : a + 1 ≤ b ∧ b < a + 1 + rest.length
      · have h3 : a ≤ b ∧ b < a + (x :: rest).length := by simp only [List.length_cons]; omega
        rw [dif_pos h2, dif_pos h3]
        obtain ⟨j, hj⟩ : ∃ j, b - a = j + 1 := ⟨b - a - 1, by omega⟩
        simp only [hj, List.getElem_cons_succ]
        congr 1
        omega
      · rw [dif_neg h2, dif_neg (by simp only [List.length_cons]; omega), if_neg h1]

theorem State.storeByte_mem_wf {s : State} (h : s.mem.wf) (a v : Byte) : (s.storeByte a v).mem.wf :=
  Memory.write_wf h a.isLt v

/-- A cell reads as what was stored to it, and as before if another one was stored to (20_memory.md R40). -/
theorem State.storeByte_byteAt (s : State) (a v b : Byte) :
    (s.storeByte a v).byteAt b = if a = b then v else s.byteAt b := by
  simp [State.byteAt, State.storeByte, Memory.read_write, BitVec.toNat_inj]

@[simp] theorem State.storeByte_byteAt_self (s : State) (a v : Byte) : (s.storeByte a v).byteAt a = v := by
  simp [State.storeByte_byteAt]

theorem State.reset_mem_wf : State.reset.mem.wf := by decide

end Sys2Proof.Machine
end

