-- ==== Sys2Proof/Laws/Ops.lean ====
section
/-! SUPPORT. What each shared operation does, said once: the stack sequences, the advance, the register check, the write-back. -/

namespace Sys2Proof.Machine

variable (s : State)

/-! ### The stack sequences (43_stack_control_instructions.md R140) -/

theorem State.push_eq (v : Byte) : s.push v = (s.storeByte s.sp v).setSp (s.sp - 1) := rfl
@[simp] theorem State.push_pc (v : Byte) : (s.push v).pc = s.pc := rfl
@[simp] theorem State.push_fl (v : Byte) : (s.push v).fl = s.fl := rfl
@[simp] theorem State.push_rs (v : Byte) : (s.push v).rs = s.rs := rfl
@[simp] theorem State.push_out (v : Byte) : (s.push v).out = s.out := rfl
@[simp] theorem State.push_sp (v : Byte) : (s.push v).sp = s.sp - 1 := by simp [State.push_eq]
theorem State.push_reg (v : Byte) (k : Reg) :
    (s.push v).reg k = if k = Config.spIndex then s.sp - 1 else s.reg k := by
  simp [State.push_eq, State.setSp_reg]
theorem State.push_byteAt (v b : Byte) : (s.push v).byteAt b = if s.sp = b then v else s.byteAt b := by
  simp [State.push_eq, State.storeByte_byteAt]
theorem State.push_mem (v : Byte) : (s.push v).mem = s.mem.write s.sp.toNat v := rfl
theorem State.push_mem_wf {s : State} (h : s.mem.wf) (v : Byte) : (s.push v).mem.wf :=
  State.storeByte_mem_wf h s.sp v

@[simp] theorem State.raiseSp_pc : s.raiseSp.pc = s.pc := rfl
@[simp] theorem State.raiseSp_fl : s.raiseSp.fl = s.fl := rfl
@[simp] theorem State.raiseSp_rs : s.raiseSp.rs = s.rs := rfl
@[simp] theorem State.raiseSp_out : s.raiseSp.out = s.out := rfl
@[simp] theorem State.raiseSp_mem : s.raiseSp.mem = s.mem := rfl
@[simp] theorem State.raiseSp_sp : s.raiseSp.sp = s.sp + 1 := by simp [State.raiseSp]
@[simp] theorem State.raiseSp_byteAt (b : Byte) : s.raiseSp.byteAt b = s.byteAt b := rfl
@[simp] theorem State.raiseSp_top : s.raiseSp.top = s.byteAt (s.sp + 1) := by simp [State.top]
theorem State.raiseSp_reg (k : Reg) : s.raiseSp.reg k = if k = Config.spIndex then s.sp + 1 else s.reg k := by
  simp [State.raiseSp, State.setSp_reg]

theorem State.clearTop_eq : s.clearTop = s.storeByte s.sp 0 := rfl
@[simp] theorem State.clearTop_x : s.clearTop.x = s.x := rfl
@[simp] theorem State.clearTop_pc : s.clearTop.pc = s.pc := rfl
@[simp] theorem State.clearTop_fl : s.clearTop.fl = s.fl := rfl
@[simp] theorem State.clearTop_rs : s.clearTop.rs = s.rs := rfl
@[simp] theorem State.clearTop_out : s.clearTop.out = s.out := rfl
@[simp] theorem State.clearTop_reg (k : Reg) : s.clearTop.reg k = s.reg k := rfl
@[simp] theorem State.clearTop_sp : s.clearTop.sp = s.sp := rfl
theorem State.clearTop_byteAt (b : Byte) : s.clearTop.byteAt b = if s.sp = b then 0 else s.byteAt b := by
  simp [State.clearTop_eq, State.storeByte_byteAt]
theorem State.clearTop_mem : s.clearTop.mem = s.mem.write s.sp.toNat 0 := rfl
theorem State.clearTop_mem_wf {s : State} (h : s.mem.wf) : s.clearTop.mem.wf :=
  State.storeByte_mem_wf h s.sp 0

/-! ### The advance (40_cycle.md R86) -/

@[simp] theorem State.advance_x (p op : Byte) : (s.advance p op).x = s.x := by
  unfold State.advance; split <;> rfl
@[simp] theorem State.advance_fl (p op : Byte) : (s.advance p op).fl = s.fl := by
  unfold State.advance; split <;> rfl
@[simp] theorem State.advance_mem (p op : Byte) : (s.advance p op).mem = s.mem := by
  unfold State.advance; split <;> rfl
@[simp] theorem State.advance_rs (p op : Byte) : (s.advance p op).rs = s.rs := by
  unfold State.advance; split <;> rfl
@[simp] theorem State.advance_out (p op : Byte) : (s.advance p op).out = s.out := by
  unfold State.advance; split <;> rfl
@[simp] theorem State.advance_reg (p op : Byte) (k : Reg) : (s.advance p op).reg k = s.reg k := by
  unfold State.advance; split <;> rfl
@[simp] theorem State.advance_byteAt (p op k : Byte) : (s.advance p op).byteAt k = s.byteAt k := by
  unfold State.advance; split <;> rfl

theorem State.advance_of_mem {op : Byte} (p : Byte) (h : op ∈ controlTransferSet) : s.advance p op = s := by
  simp [State.advance, h]

theorem State.advance_of_not_mem {op : Byte} (p : Byte) (h : op ∉ controlTransferSet) :
    s.advance p op = s.setPc (p + 1 + BitVec.ofNat 8 (operandCount op)) := by
  simp [State.advance, h]

/-! ### The register check (40_cycle.md R84) -/

theorem registerOf_regOperand (r : Reg) : registerOf (regOperand r) = some r := by
  revert r; decide

theorem registerOf_eq_none {o : Byte} (h : 8 ≤ o.toNat) : registerOf o = none := by
  simp [registerOf, Config.nreg, h]

/-- Every operand byte in range names a register, and is that register's operand byte. -/
theorem exists_regOperand {o : Byte} (h : o.toNat < 8) : ∃ r : Reg, o = regOperand r := by
  refine ⟨⟨o.toNat, h⟩, ?_⟩
  simp [regOperand]

theorem toNat_regOperand (r : Reg) : (regOperand r).toNat = r.val := by
  revert r; decide

/-- An operand byte either names a register or is above 7. -/
theorem operand_cases (o : Byte) : (∃ r : Reg, o = regOperand r) ∨ 8 ≤ o.toNat := by
  by_cases h : o.toNat < 8
  · exact .inl (exists_regOperand h)
  · exact .inr (by omega)

theorem withRegister_regOperand (op : Byte) (r : Reg) (k : Reg → Outcome) :
    withRegister op (regOperand r) s k = k r := by
  simp [withRegister, registerOf_regOperand]

theorem withRegister_out_of_range (op : Byte) {o : Byte} (h : 8 ≤ o.toNat) (k : Reg → Outcome) :
    withRegister op o s k = raise (.outOfRangeAddress o) op s := by
  simp [withRegister, registerOf_eq_none h]

theorem withRegisters_regOperand (op : Byte) (a b : Reg) (k : Reg → Reg → Outcome) :
    withRegisters op (regOperand a) (regOperand b) s k = k a b := by
  simp [withRegisters, withRegister_regOperand]

theorem withRegisters_first_out_of_range (op : Byte) {o1 : Byte} (o2 : Byte) (h : 8 ≤ o1.toNat)
    (k : Reg → Reg → Outcome) :
    withRegisters op o1 o2 s k = raise (.outOfRangeAddress o1) op s := by
  simp [withRegisters, withRegister_out_of_range s op h]

theorem withRegisters_second_out_of_range (op : Byte) (a : Reg) {o2 : Byte} (h : 8 ≤ o2.toNat)
    (k : Reg → Reg → Outcome) :
    withRegisters op (regOperand a) o2 s k = raise (.outOfRangeAddress o2) op s := by
  simp [withRegisters, withRegister_regOperand, withRegister_out_of_range s op h]

/-! ### The ALU on values and the write-back (41_alu.md R100) -/

theorem alu_add (a b : Byte) : alu .add a b = .value (a + b) := by
  simp [alu, wrapByte, BitVec.ofInt_add]

theorem alu_mul (a b : Byte) : alu .mul a b = .value (a * b) := by
  simp [alu, wrapByte, BitVec.ofInt_mul]

theorem alu_cmp (a b : Byte) : alu .cmp a b = .compare (compareBytes a b) := rfl

/-- The comparison is the unsigned order (41_alu.md R109). -/
theorem compareBytes_eq_equal (a b : Byte) : compareBytes a b = .equal ↔ a.toNat = b.toNat := by
  unfold compareBytes
  rw [BitVec.toNat_inj]
  split
  · simp_all
  · split <;> simp_all

theorem compareBytes_eq_less (a b : Byte) : compareBytes a b = .less ↔ a.toNat < b.toNat := by
  unfold compareBytes
  split
  · simp_all
  · split <;> simp_all

theorem compareBytes_eq_greater (a b : Byte) : compareBytes a b = .greater ↔ b.toNat < a.toNat := by
  unfold compareBytes
  split
  · simp_all
  · next h =>
    have : a.toNat ≠ b.toNat := fun e => h (BitVec.eq_of_toNat_eq e)
    split <;> simp <;> omega

theorem execute_done {op : Byte} {h : State → Handled} {t : State} (e : h s = .done t) :
    execute op h s = .next (t.advance s.pc op) := by
  simp [execute, e]

theorem execute_raised {op : Byte} {h : State → Handled} {c : ErrorCondition} {t : State} (e : h s = .raised c t) :
    execute op h s = .next (t.enterFault c s.pc op) := by
  simp [execute, e]

end Sys2Proof.Machine
end

