-- ==== Sys2Proof/Laws/Exec.lean ====
section
/-! SUPPORT. One lemma per instruction: the state it leaves when its register operands are registers; and one for those that are not. -/

namespace Sys2Proof.Machine

variable (s : State)

theorem exec_nop : exec .nop s = .next (s.setPc (s.pc + 1)) := by
  simp [exec, execNop, execute, State.advance, controlTransferSet, opcNop, opcCall, opcRet, operandCount]

theorem exec_ldi (r : Reg) (v : Byte) :
    exec (.ldi (regOperand r) v) s = .next ((s.setReg r v).setPc (s.pc + 3)) := by
  simp [exec, execLdi, withRegister_regOperand, execute, State.advance, controlTransferSet, opcLdi, opcCall, opcRet,
    operandCount, BitVec.add_assoc]

theorem exec_prn (r : Reg) :
    exec (.prn (regOperand r)) s = .next ((s.emit (s.reg r)).setPc (s.pc + 2)) := by
  simp [exec, execPrn, withRegister_regOperand, execute, State.advance, controlTransferSet, opcPrn, opcCall, opcRet,
    operandCount, BitVec.add_assoc]

theorem exec_add (a b : Reg) :
    exec (.add (regOperand a) (regOperand b)) s =
      .next ((s.setReg a (s.reg a + s.reg b)).setPc (s.pc + 3)) := by
  simp [exec, execAdd, withRegisters_regOperand, alu_add, deliver, execute, State.advance, controlTransferSet, opcAdd,
    opcCall, opcRet, operandCount, BitVec.add_assoc]

theorem exec_mul (a b : Reg) :
    exec (.mul (regOperand a) (regOperand b)) s =
      .next ((s.setReg a (s.reg a * s.reg b)).setPc (s.pc + 3)) := by
  simp [exec, execMul, withRegisters_regOperand, alu_mul, deliver, execute, State.advance, controlTransferSet, opcMul,
    opcCall, opcRet, operandCount, BitVec.add_assoc]

theorem exec_cmp (a b : Reg) :
    exec (.cmp (regOperand a) (regOperand b)) s =
      .next ((s.setFlags (compareBytes (s.reg a) (s.reg b))).setPc (s.pc + 3)) := by
  simp [exec, execCmp, withRegisters_regOperand, alu_cmp, deliver, execute, State.advance, controlTransferSet, opcCmp,
    opcCall, opcRet, operandCount, BitVec.add_assoc]

theorem exec_push (r : Reg) :
    exec (.push (regOperand r)) s = .next ((s.push (s.reg r)).setPc (s.pc + 2)) := by
  simp [exec, execPush, withRegister_regOperand, execute, State.advance, controlTransferSet, opcPush, opcCall, opcRet,
    operandCount, BitVec.add_assoc]

theorem exec_pop (r : Reg) :
    exec (.pop (regOperand r)) s =
      .next ((s.raiseSp.setReg r (s.byteAt (s.sp + 1))).clearTop.setPc (s.pc + 2)) := by
  simp [exec, execPop, withRegister_regOperand, execute, State.advance, controlTransferSet, opcPop, opcCall, opcRet,
    operandCount, BitVec.add_assoc]

theorem exec_call (r : Reg) :
    exec (.call (regOperand r)) s =
      .next ((s.push (s.pc + 2)).setPc ((s.push (s.pc + 2)).reg r)) := by
  simp [exec, execCall, withRegister_regOperand, execute, State.advance, controlTransferSet]

theorem exec_ret : exec .ret s = .next (s.raiseSp.setPc (s.byteAt (s.sp + 1))).clearTop := by
  simp [exec, execRet, execute, State.advance, controlTransferSet]

theorem exec_hlt : exec .hlt s = .next ((s.setRunState .halted).setPc (s.pc + 1)) := by
  simp [exec, execHlt, execute, State.advance, controlTransferSet, opcHlt, opcCall, opcRet, operandCount]

/-- Every instruction either has register operands that are registers, or raises `OutOfRangeAddress` for the first that is not. -/
theorem exec_of_not_wf (i : Instr) (h : i.wf = false) :
    ∃ k ∈ i.operands, 8 ≤ k.toNat ∧
      exec i s = .next (s.enterFault (.outOfRangeAddress k) s.pc i.opcode) := by
  have one : ∀ o : Byte, isRegisterIndex o = false → 8 ≤ o.toNat := by
    intro o ho
    simpa [isRegisterIndex, Config.nreg] using ho
  have two : ∀ o1 o2 : Byte, (isRegisterIndex o1 && isRegisterIndex o2) = false → 8 ≤ o1.toNat ∨
      ((∃ r : Reg, o1 = regOperand r) ∧ 8 ≤ o2.toNat) := by
    intro o1 o2 ho
    rcases operand_cases o1 with hr | h1
    · obtain ⟨r, rfl⟩ := hr
      refine .inr ⟨⟨r, rfl⟩, one o2 ?_⟩
      have : isRegisterIndex (regOperand r) = true := by
        simp [isRegisterIndex_iff, toNat_regOperand]
      simpa [this] using ho
    · exact .inl h1
  cases i with
  | nop => simp [Instr.wf] at h
  | ret => simp [Instr.wf] at h
  | hlt => simp [Instr.wf] at h
  | ldi o1 o2 => exact ⟨o1, by simp [Instr.operands], one o1 h, withRegister_out_of_range s _ (one o1 h) _⟩
  | prn o1 => exact ⟨o1, by simp [Instr.operands], one o1 h, withRegister_out_of_range s _ (one o1 h) _⟩
  | push o1 => exact ⟨o1, by simp [Instr.operands], one o1 h, withRegister_out_of_range s _ (one o1 h) _⟩
  | pop o1 => exact ⟨o1, by simp [Instr.operands], one o1 h, withRegister_out_of_range s _ (one o1 h) _⟩
  | call o1 => exact ⟨o1, by simp [Instr.operands], one o1 h, withRegister_out_of_range s _ (one o1 h) _⟩
  | add o1 o2 =>
    rcases two o1 o2 h with h1 | ⟨⟨r, rfl⟩, h2⟩
    · exact ⟨o1, by simp [Instr.operands], h1, withRegisters_first_out_of_range s _ o2 h1 _⟩
    · exact ⟨o2, by simp [Instr.operands], h2, withRegisters_second_out_of_range s _ r h2 _⟩
  | mul o1 o2 =>
    rcases two o1 o2 h with h1 | ⟨⟨r, rfl⟩, h2⟩
    · exact ⟨o1, by simp [Instr.operands], h1, withRegisters_first_out_of_range s _ o2 h1 _⟩
    · exact ⟨o2, by simp [Instr.operands], h2, withRegisters_second_out_of_range s _ r h2 _⟩
  | cmp o1 o2 =>
    rcases two o1 o2 h with h1 | ⟨⟨r, rfl⟩, h2⟩
    · exact ⟨o1, by simp [Instr.operands], h1, withRegisters_first_out_of_range s _ o2 h1 _⟩
    · exact ⟨o2, by simp [Instr.operands], h2, withRegisters_second_out_of_range s _ r h2 _⟩

/-- A well-formed instruction's operands are registers: the forms the lemmas above speak of. -/
theorem Instr_wf_cases (i : Instr) (h : i.wf = true) :
    i = .nop ∨ i = .ret ∨ i = .hlt ∨
    (∃ (r : Reg) (v : Byte), i = .ldi (regOperand r) v) ∨
    (∃ r : Reg, i = .prn (regOperand r) ∨ i = .push (regOperand r) ∨ i = .pop (regOperand r) ∨ i = .call (regOperand r)) ∨
    (∃ a b : Reg, i = .add (regOperand a) (regOperand b) ∨ i = .mul (regOperand a) (regOperand b) ∨
      i = .cmp (regOperand a) (regOperand b)) := by
  have one : ∀ o : Byte, isRegisterIndex o = true → ∃ r : Reg, o = regOperand r := fun o ho =>
    exists_regOperand ((isRegisterIndex_iff o).mp ho)
  cases i with
  | nop => simp
  | ret => simp
  | hlt => simp
  | ldi o1 o2 => obtain ⟨r, rfl⟩ := one o1 h; simp
  | prn o1 => obtain ⟨r, rfl⟩ := one o1 h; simp
  | push o1 => obtain ⟨r, rfl⟩ := one o1 h; simp
  | pop o1 => obtain ⟨r, rfl⟩ := one o1 h; simp
  | call o1 => obtain ⟨r, rfl⟩ := one o1 h; simp
  | add o1 o2 =>
    simp only [Instr.wf, Bool.and_eq_true] at h
    obtain ⟨⟨r, rfl⟩, ⟨q, rfl⟩⟩ := And.intro (one o1 h.1) (one o2 h.2); simp
  | mul o1 o2 =>
    simp only [Instr.wf, Bool.and_eq_true] at h
    obtain ⟨⟨r, rfl⟩, ⟨q, rfl⟩⟩ := And.intro (one o1 h.1) (one o2 h.2); simp
  | cmp o1 o2 =>
    simp only [Instr.wf, Bool.and_eq_true] at h
    obtain ⟨⟨r, rfl⟩, ⟨q, rfl⟩⟩ := And.intro (one o1 h.1) (one o2 h.2); simp

/-- All an instruction can do: it stops for a register operand that is none, or it is one of these forms and leaves this state. -/
theorem exec_cases {i : Instr} {t : State} (h : exec i s = .next t) :
    (∃ k, i.wf = false ∧ k ∈ i.operands ∧ 8 ≤ k.toNat ∧
      t = s.enterFault (.outOfRangeAddress k) s.pc i.opcode) ∨
    (i = .nop ∧ t = s.setPc (s.pc + 1)) ∨
    (i = .ret ∧ t = (s.raiseSp.setPc (s.byteAt (s.sp + 1))).clearTop) ∨
    (i = .hlt ∧ t = (s.setRunState .halted).setPc (s.pc + 1)) ∨
    (∃ r v, i = .ldi (regOperand r) v ∧ t = (s.setReg r v).setPc (s.pc + 3)) ∨
    (∃ r, i = .prn (regOperand r) ∧ t = (s.emit (s.reg r)).setPc (s.pc + 2)) ∨
    (∃ r, i = .push (regOperand r) ∧ t = (s.push (s.reg r)).setPc (s.pc + 2)) ∨
    (∃ r, i = .pop (regOperand r) ∧
      t = (s.raiseSp.setReg r (s.byteAt (s.sp + 1))).clearTop.setPc (s.pc + 2)) ∨
    (∃ r, i = .call (regOperand r) ∧ t = (s.push (s.pc + 2)).setPc ((s.push (s.pc + 2)).reg r)) ∨
    (∃ a b, i = .add (regOperand a) (regOperand b) ∧
      t = (s.setReg a (s.reg a + s.reg b)).setPc (s.pc + 3)) ∨
    (∃ a b, i = .mul (regOperand a) (regOperand b) ∧
      t = (s.setReg a (s.reg a * s.reg b)).setPc (s.pc + 3)) ∨
    (∃ a b, i = .cmp (regOperand a) (regOperand b) ∧
      t = (s.setFlags (compareBytes (s.reg a) (s.reg b))).setPc (s.pc + 3)) := by
  cases hw : i.wf with
  | false =>
    obtain ⟨k, hk, h8, he⟩ := exec_of_not_wf s i hw
    rw [he] at h
    cases h
    exact .inl ⟨k, rfl, hk, h8, rfl⟩
  | true =>
    refine .inr ?_
    rcases Instr_wf_cases i hw with
      rfl | rfl | rfl | ⟨r, v, rfl⟩ | ⟨r, rfl | rfl | rfl | rfl⟩ | ⟨a, b, rfl | rfl | rfl⟩
    · rw [exec_nop] at h; cases h; exact .inl ⟨rfl, rfl⟩
    · rw [exec_ret] at h; cases h; exact .inr (.inl ⟨rfl, rfl⟩)
    · rw [exec_hlt] at h; cases h; exact .inr (.inr (.inl ⟨rfl, rfl⟩))
    · rw [exec_ldi] at h; cases h; exact .inr (.inr (.inr (.inl ⟨r, v, rfl, rfl⟩)))
    · rw [exec_prn] at h; cases h; exact .inr (.inr (.inr (.inr (.inl ⟨r, rfl, rfl⟩))))
    · rw [exec_push] at h; cases h; exact .inr (.inr (.inr (.inr (.inr (.inl ⟨r, rfl, rfl⟩)))))
    · rw [exec_pop] at h; cases h
      exact .inr (.inr (.inr (.inr (.inr (.inr (.inl ⟨r, rfl, rfl⟩))))))
    · rw [exec_call] at h; cases h
      exact .inr (.inr (.inr (.inr (.inr (.inr (.inr (.inl ⟨r, rfl, rfl⟩)))))))
    · rw [exec_add] at h; cases h
      exact .inr (.inr (.inr (.inr (.inr (.inr (.inr (.inr (.inl ⟨a, b, rfl, rfl⟩))))))))
    · rw [exec_mul] at h; cases h
      exact .inr (.inr (.inr (.inr (.inr (.inr (.inr (.inr (.inr (.inl ⟨a, b, rfl, rfl⟩)))))))))
    · rw [exec_cmp] at h; cases h
      exact .inr (.inr (.inr (.inr (.inr (.inr (.inr (.inr (.inr (.inr ⟨a, b, rfl, rfl⟩)))))))))

end Sys2Proof.Machine
end

