-- ==== Sys2Proof/Laws/PerInstr.lean ====
section
/-! SUPPORT. The per-instruction family `EncodedLength`: an instruction's bytes are its opcode and as many operand bytes as bits 7:6 of the
opcode say (30_encoding.md R61, R62). -/

namespace Sys2Proof.Laws.EncodedLength

/-- The length of an encoded instruction, by its opcode byte alone, and at most three. -/
def Statement (i : Instr) : Prop :=
  (encode i).length = 1 + operandCount i.opcode ∧ (encode i).length ≤ Config.maxInstrBytes

theorem nop : Statement .nop :=
  ⟨(by decide : 1 = 1 + operandCount opcNop), (by decide : 1 ≤ 3)⟩
theorem ldi (o1 o2 : Byte) : Statement (.ldi o1 o2) :=
  ⟨(by decide : 3 = 1 + operandCount opcLdi), (by decide : 3 ≤ 3)⟩
theorem prn (o1 : Byte) : Statement (.prn o1) :=
  ⟨(by decide : 2 = 1 + operandCount opcPrn), (by decide : 2 ≤ 3)⟩
theorem add (o1 o2 : Byte) : Statement (.add o1 o2) :=
  ⟨(by decide : 3 = 1 + operandCount opcAdd), (by decide : 3 ≤ 3)⟩
theorem mul (o1 o2 : Byte) : Statement (.mul o1 o2) :=
  ⟨(by decide : 3 = 1 + operandCount opcMul), (by decide : 3 ≤ 3)⟩
theorem cmp (o1 o2 : Byte) : Statement (.cmp o1 o2) :=
  ⟨(by decide : 3 = 1 + operandCount opcCmp), (by decide : 3 ≤ 3)⟩
theorem push (o1 : Byte) : Statement (.push o1) :=
  ⟨(by decide : 2 = 1 + operandCount opcPush), (by decide : 2 ≤ 3)⟩
theorem pop (o1 : Byte) : Statement (.pop o1) :=
  ⟨(by decide : 2 = 1 + operandCount opcPop), (by decide : 2 ≤ 3)⟩
theorem call (o1 : Byte) : Statement (.call o1) :=
  ⟨(by decide : 2 = 1 + operandCount opcCall), (by decide : 2 ≤ 3)⟩
theorem ret : Statement .ret :=
  ⟨(by decide : 1 = 1 + operandCount opcRet), (by decide : 1 ≤ 3)⟩
theorem hlt : Statement .hlt :=
  ⟨(by decide : 1 = 1 + operandCount opcHlt), (by decide : 1 ≤ 3)⟩

end Sys2Proof.Laws.EncodedLength
end

