-- ==== Sys2Proof/Laws/Step.lean ====
section
/-! SUPPORT. What one step does, by the unit's run state and by what the bytes at the program counter decode to. -/

namespace Sys2Proof.Machine

variable {s : State}

theorem step_of_running (h : s.rs = .running) : step s = cycle s := by
  simp [step, h]

theorem step_of_stopped (h : s.rs ≠ .running) : step s = .next s := by
  unfold step
  split <;> simp_all

/-- Fetch reads every byte of the instruction: decoding what it reads is never cut short (40_cycle.md R83). -/
theorem decode_fetchBytes_ne_truncated (s : State) : decode s.fetchBytes ≠ .truncated := by
  simp only [State.fetchBytes, decode_cons, State.operandBytes]
  cases e : dispatch (s.byteAt s.pc) with
  | none => simp
  | some h =>
    have key : ∀ op : Byte, ∀ h ∈ [Handler.nop, .ldi, .prn, .add, .mul, .cmp, .push, .pop, .call, .ret, .hlt],
        dispatch op = some h →
        operandCount op = (match h with
          | .nop => 0 | .ret => 0 | .hlt => 0 | .prn => 1 | .push => 1 | .pop => 1 | .call => 1
          | .ldi => 2 | .add => 2 | .mul => 2 | .cmp => 2) := by decide
    have := key _ h (by cases h <;> simp) e
    cases h <;> simp only at this <;> simp [this, decodeOperands, takeOne, takeTwo]

/-- A cycle runs an instruction, or stops with `UnknownOpcode`; nothing else (40_cycle.md R87). -/
theorem cycle_cases (s : State) :
    (∃ i rest, decode s.fetchBytes = .instr i rest ∧ cycle s = exec i s) ∨
    (dispatch (s.byteAt s.pc) = none ∧
      cycle s = .next (s.enterFault (.unknownOpcode (s.byteAt s.pc)) s.pc (s.byteAt s.pc))) := by
  cases e : decode s.fetchBytes with
  | instr i rest => exact .inl ⟨i, rest, rfl, by simp [cycle, e]⟩
  | unknownOpcode op =>
    refine .inr ?_
    have hd := e
    rw [State.fetchBytes, decode_cons] at hd
    cases hdis : dispatch (s.byteAt s.pc) with
    | none =>
      simp only [hdis, Option.elim_none, DecodeResult.unknownOpcode.injEq] at hd
      exact ⟨rfl, by simp [cycle, e, raise, hd]⟩
    | some h =>
      exfalso
      simp only [hdis, Option.elim_some] at hd
      revert hd
      cases h <;> simp only [decodeOperands] <;> (try unfold takeOne) <;> (try unfold takeTwo) <;>
        (try split) <;> simp
  | truncated => exact absurd e (decode_fetchBytes_ne_truncated s)

theorem stepState_of_next {t : State} (h : step s = .next t) : stepState s = t := by
  simp [stepState, h]

/-- All a step can do: nothing, on a stopped unit; or run the decoded instruction; or stop for a byte that is not dispatched. -/
theorem step_cases {t : State} (h : step s = .next t) :
    (s.rs ≠ .running ∧ t = s) ∨
    (s.rs = .running ∧ ∃ i rest, decode s.fetchBytes = .instr i rest ∧ exec i s = .next t) ∨
    (s.rs = .running ∧ dispatch (s.byteAt s.pc) = none ∧
      t = s.enterFault (.unknownOpcode (s.byteAt s.pc)) s.pc (s.byteAt s.pc)) := by
  by_cases hr : s.rs = .running
  · rw [step_of_running hr] at h
    rcases cycle_cases s with ⟨i, rest, hi, hc⟩ | ⟨hd, hc⟩
    · exact .inr (.inl ⟨hr, i, rest, hi, hc ▸ h⟩)
    · rw [hc] at h
      cases h
      exact .inr (.inr ⟨hr, hd, rfl⟩)
  · rw [step_of_stopped hr] at h
    cases h
    exact .inl ⟨hr, rfl⟩

/-! ### Runs under a bound -/

theorem runFor_of_stopped (k : Nat) (h : s.rs ≠ .running) : runFor k s = s := by
  cases k with
  | zero => rfl
  | succ k => unfold runFor; split <;> simp_all

theorem runFor_succ_of_running (k : Nat) (h : s.rs = .running) : runFor (k + 1) s = runFor k (stepState s) := by
  simp [runFor, h]

/-- The host's own runner, one step on. -/
theorem coreRun_succ {M : Host.Core} {k : Nat} {s t : M.State} (h : M.step s = .next t) :
    M.run (k + 1) s = M.run k t := by
  simp [Host.Core.run, h]

end Sys2Proof.Machine
end

