-- ==== Sys2Proof/Tests/Slice0.lean ====
section
/-! SUPPORT. The model's own tests: expected results from spec/95_test_vectors.md (V<n>, S<n>) or worked out by hand from the rule named; and for
every statement with hypotheses a named witness that meets them. -/

namespace Sys2Proof.Tests
open Sys2Proof.Machine

/-- The reset state with an image loaded, and a program counter. -/
def boot (bytes : List Byte) (start : Byte := 0) (pc : Byte := 0) : State :=
  match load bytes start State.reset with
  | .loaded s => s.setPc pc
  | .failed _ => State.reset

/-! ### WellFormed: one ill-formed term for each check, refused -/

theorem test_wf_refuses_ldi : (Instr.ldi 8 0).wf = false := by decide
theorem test_wf_refuses_prn : (Instr.prn 255).wf = false := by decide
theorem test_wf_refuses_add_first : (Instr.add 8 0).wf = false := by decide
theorem test_wf_refuses_add_second : (Instr.add 0 8).wf = false := by decide
theorem test_wf_refuses_mul : (Instr.mul 0 8).wf = false := by decide
theorem test_wf_refuses_cmp : (Instr.cmp 9 1).wf = false := by decide
theorem test_wf_refuses_push : (Instr.push 8).wf = false := by decide
theorem test_wf_refuses_pop : (Instr.pop 8).wf = false := by decide
theorem test_wf_refuses_call : (Instr.call 8).wf = false := by decide
theorem test_wf_takes_any_immediate : (Instr.ldi 7 255).wf = true := by decide

/-! ### Decoding: one word for each constructor, written out from 30_encoding.md R60, R66 -/

theorem test_decode_nop : decode [0b00000000#8] = .instr .nop [] := by decide
theorem test_decode_ldi : decode [0b10000010#8, 0b00000011#8, 0b11111111#8] = .instr (.ldi 3 255) [] := by decide
theorem test_decode_prn : decode [0b01000111#8, 0b00000111#8] = .instr (.prn 7) [] := by decide
theorem test_decode_add : decode [0b10100000#8, 0b00000001#8, 0b00000110#8] = .instr (.add 1 6) [] := by decide
theorem test_decode_mul : decode [0b10100010#8, 0b00000010#8, 0b00000101#8] = .instr (.mul 2 5) [] := by decide
theorem test_decode_cmp : decode [0b10100111#8, 0b00000011#8, 0b00000100#8] = .instr (.cmp 3 4) [] := by decide
theorem test_decode_push : decode [0b01000101#8, 0b00000010#8] = .instr (.push 2) [] := by decide
theorem test_decode_pop : decode [0b01000110#8, 0b00000001#8] = .instr (.pop 1) [] := by decide
theorem test_decode_call : decode [0b01010000#8, 0b00000100#8] = .instr (.call 4) [] := by decide
theorem test_decode_ret : decode [0b00010001#8, 0xAA#8] = .instr .ret [0xAA#8] := by decide
theorem test_decode_hlt : decode [0b00000001#8] = .instr .hlt [] := by decide
/-- SUB has no opcode (V4). -/
theorem test_decode_rejects_sub : decode [0xA1#8, 0#8, 0#8] = .unknownOpcode 0xA1#8 := by decide
theorem test_decode_truncated : decode [0x82#8, 0#8] = .truncated := by decide
/-- The image of S1 starts with LDI R0,8: its table word has the first byte lowest. -/
theorem test_table_word_ldi : decodeTableWord 24 0x080082 = some (.ldi 0 8) := by decide
/-- A row of 8 bits for a longer instruction: the operand bits are 0. -/
theorem test_table_word_short : decodeTableWord 8 0xA0 = some (.add 0 0) := by decide
theorem test_table_word_refused : decodeTableWord 8 0xFF = none := by decide
theorem test_fetch_word_runs : (stepState (State.reset.withFetchWord 24 0x080082)).reg 0 = 8#8 := by decide

/-! ### One step of each instruction -/

/-- V1. -/
theorem test_nop_reset : stepState State.reset = { State.reset with pc := 0x01#8 } := by decide
/-- R120, corner case: at 0xFF the next program counter is 0x00. -/
theorem test_nop_wraps : (stepState (boot [] 0 0xFF#8)).pc = 0x00#8 := by decide
/-- V8: fetched across the wrap. -/
theorem test_ldi_wraps : let t := stepState ((boot [0x03#8, 0x77#8] 0 0xFF#8).storeByte 0xFF#8 0x82#8)
    t.reg 3 = 0x77#8 ∧ t.pc = 0x02#8 := by decide
/-- V12: LDI R7 moves the stack pointer. -/
theorem test_ldi_r7 : (stepState (boot [0x82#8, 0x07#8, 0xFF#8])).sp = 0xFF#8 := by decide
/-- V19: PRN R7 emits the stack pointer. -/
theorem test_prn_r7 : (stepState (boot [0x47#8, 0x07#8])).out = [244#8] := by decide
/-- V17. -/
theorem test_prn_r8 : (stepState (boot [0x47#8, 0x08#8])).rs = .faulted (.outOfRangeAddress 8) 0x00#8 0x47#8 := by decide
/-- V23: 200 + 100. -/
theorem test_add_wraps :
    (stepState (((boot [0xA0#8, 0x00#8, 0x01#8]).setReg 0 200#8).setReg 1 100#8)).reg 0 = 44#8 := by decide
/-- V13: both operands bad, the first is reported. -/
theorem test_add_reports_first :
    (stepState (boot [0xA0#8, 0x09#8, 0x08#8])).rs = .faulted (.outOfRangeAddress 9) 0x00#8 0xA0#8 := by decide
/-- V30: 255 * 255. -/
theorem test_mul_wraps :
    (stepState (((boot [0xA2#8, 0x00#8, 0x01#8]).setReg 0 0xFF#8).setReg 1 0xFF#8)).reg 0 = 0x01#8 := by decide
/-- V32: MUL R0, R0 squares. -/
theorem test_mul_squares : (stepState ((boot [0xA2#8, 0x00#8, 0x00#8]).setReg 0 0x0C#8)).reg 0 = 0x90#8 := by decide
/-- V37: unsigned, with the bits of D4. -/
theorem test_cmp_unsigned :
    (stepState (((boot [0xA7#8, 0x00#8, 0x01#8]).setReg 0 0x80#8).setReg 1 0x7F#8)).fl.toBits = 0b010#3 := by decide
/-- V33. -/
theorem test_cmp_less :
    (stepState (((boot [0xA7#8, 0x00#8, 0x01#8]).setReg 0 5#8).setReg 1 7#8)).fl.toBits = 0b100#3 := by decide
/-- V53: the push wraps and overwrites address 0. -/
theorem test_push_wraps :
    let t := stepState (((boot [0x45#8, 0x00#8] 0x06#8 0x06#8).setReg 0 0xAB#8).setReg 7 0x00#8)
    t.byteAt 0 = 0xAB#8 ∧ t.sp = 0xFF#8 := by decide
/-- V55, first step: PUSH R7 stores the old stack pointer. -/
theorem test_push_r7 : let t := stepState (boot [0x45#8, 0x07#8]); t.byteAt 0xF4#8 = 0xF4#8 ∧ t.sp = 0xF3#8 := by decide
/-- V54: the pop wraps, and clears. -/
theorem test_pop_wraps :
    let t := stepState (((boot [0x46#8, 0x02#8] 0x10#8 0x10#8).storeByte 0x00#8 0x5A#8).setReg 7 0xFF#8)
    t.sp = 0x00#8 ∧ t.reg 2 = 0x5A#8 ∧ t.byteAt 0 = 0x00#8 := by decide
/-- V56: POP R7 clears the cell the popped value names. -/
theorem test_pop_r7 :
    let t := stepState (((boot [0x46#8, 0x07#8]).storeByte 0xF5#8 0x20#8).storeByte 0x20#8 0x99#8)
    t.sp = 0x20#8 ∧ t.byteAt 0x20#8 = 0x00#8 ∧ t.byteAt 0xF5#8 = 0x20#8 := by decide
/-- V61: fetched across the wrap, return address 0x01. -/
theorem test_call_wraps :
    let t := stepState (((boot [0x02#8] 0 0xFF#8).storeByte 0xFF#8 0x50#8).setReg 2 0x40#8)
    t.byteAt 0xF4#8 = 0x01#8 ∧ t.sp = 0xF3#8 ∧ t.pc = 0x40#8 := by decide
/-- V62: CALL R7 jumps to the decremented stack pointer. -/
theorem test_call_r7 : (stepState (boot [0x50#8, 0x07#8])).pc = 0xF3#8 := by decide
/-- V59. -/
theorem test_ret :
    let t := stepState (((boot [0x11#8] 0x0F#8 0x0F#8).storeByte 0xF4#8 0x08#8).setReg 7 0xF3#8)
    t.sp = 0xF4#8 ∧ t.pc = 0x08#8 ∧ t.byteAt 0xF4#8 = 0x00#8 := by decide
/-- V63: RET on the empty stack. -/
theorem test_ret_empty : let t := stepState (boot [0x11#8]); t.sp = 0xF5#8 ∧ t.pc = 0x00#8 ∧ t.rs = .running := by decide
/-- V66: HLT at the top of memory. -/
theorem test_hlt_wraps : let t := stepState (boot [0x01#8] 0xFF#8 0xFF#8); t.rs = .halted ∧ t.pc = 0x00#8 := by decide
/-- V65: a step after HLT changes nothing. -/
theorem test_hlt_then_step : let t := stepState (boot [0x01#8, 0x82#8] 0x05#8 0x05#8)
    t.pc = 0x06#8 ∧ stepState t = t := by decide
/-- S3: an undispatched byte. -/
theorem test_unknown_opcode :
    stepState (boot [0xFF#8]) = { boot [0xFF#8] with rs := .faulted (.unknownOpcode 0xFF#8) 0x00#8 0xFF#8 } := by decide

/-! ### ALU, load, rendering -/

/-- V41. -/
theorem test_alu_dec_wraps : alu .dec 0x00#8 0x00#8 = .value 0xFF#8 := by decide
/-- V40. -/
theorem test_alu_inc_wraps : alu .inc 0xFF#8 0x00#8 = .value 0x00#8 := by decide
/-- V42. -/
theorem test_alu_sub_wraps : alu .sub 0x05#8 0x0A#8 = .value 0xFB#8 := by decide
/-- V46. -/
theorem test_alu_div : alu .div 0xFF#8 0x02#8 = .value 0x7F#8 := by decide
/-- V49. -/
theorem test_alu_mod : alu .mod 0xFF#8 0x10#8 = .value 0x0F#8 := by decide
/-- V50. -/
theorem test_alu_mod_zero : alu .mod 0x00#8 0x00#8 = .error .divisionByZero := by decide
/-- V67. -/
theorem test_load_top : load [0xAA#8, 0xBB#8] 0xFE#8 State.reset =
    .loaded { State.reset with mem := [(0xFE, 0xAA#8), (0xFF, 0xBB#8)] } := by decide
/-- V68. -/
theorem test_load_overrun : load [0xAA#8, 0xBB#8] 0xFF#8 State.reset =
    .failed (.programLoadError "image does not fit in memory") := by decide
/-- V69. -/
theorem test_load_nothing : load [] 0x00#8 State.reset = .loaded State.reset := by decide
/-- S1, S2: "8" and "19". -/
theorem test_render : renderOutput [8#8, 19#8, 255#8] = ["8", "19", "255"] := by decide

/-! ### Witnesses: for every statement with hypotheses, states and operands that meet them all -/

theorem witness_UndispatchedOpcodesAreRejected :
    0xC0 ≤ (0xC0#8 : Byte).toNat ∧ 0xC0 ≤ (0xFF#8 : Byte).toNat := by decide
theorem witness_InstructionLengthIsReadFromTheOpcode_decoded :
    decode (0x11#8 :: []) = .instr .ret [] ∧ decode (0xA7#8 :: [0#8, 0#8, 9#8]) = .instr (.cmp 0 0) [9#8] := by decide
theorem witness_InstructionLengthIsReadFromTheOpcode_rejected :
    (boot [0xC0#8]).rs = .running ∧ dispatch ((boot [0xC0#8]).byteAt (boot [0xC0#8]).pc) = none := by decide
/-- The wrap: an LDI at 0xFF. -/
theorem witness_StepRunsTheDecodedInstruction :
    let s := (boot [0x03#8, 0x77#8] 0 0xFF#8).storeByte 0xFF#8 0x82#8
    s.rs = .running ∧ decode [s.byteAt s.pc, s.byteAt (s.pc + 1), s.byteAt (s.pc + 2)] = .instr (.ldi 3 0x77) [] := by decide
/-- A PUSH whose store hits its own operand cell. -/
theorem witness_InstructionInMemoryRuns :
    let s := (boot [0x45#8, 0x00#8]).setReg 7 0x01#8
    s.rs = .running ∧ ∀ k : Fin 2, s.byteAt (s.pc + BitVec.ofNat 8 k.val) = (encode (.push 0))[k.val] := by decide
theorem witness_UndispatchedByteFaultsTheUnit :
    (boot [0xFF#8]).rs = .running ∧ dispatch ((boot [0xFF#8]).byteAt (boot [0xFF#8]).pc) = none := by decide
theorem witness_StoppedUnitNeverMoves :
    (State.reset.setRunState .halted).rs ≠ .running ∧
    (State.reset.enterFault (.unknownOpcode 0xFF) 0 0xFF).rs ≠ .running := by decide
theorem witness_WellFormedInstructionsComplete :
    Instr.nop.wf = true ∧ (Instr.add 0 7).wf = true ∧ (Instr.ldi 7 255).wf = true ∧ Instr.hlt.wf = true := by decide
theorem witness_FaultsArePreciseAndFromDecode_unknown :
    ∃ t, (boot [0xFF#8]).rs = .running ∧ step (boot [0xFF#8]) = .next t ∧
      t.rs = .faulted (.unknownOpcode 0xFF) 0x00#8 0xFF#8 := ⟨_, by decide, rfl, by decide⟩
theorem witness_FaultsArePreciseAndFromDecode_register :
    ∃ t, (boot [0xA0#8, 0x07#8, 0x08#8]).rs = .running ∧ step (boot [0xA0#8, 0x07#8, 0x08#8]) = .next t ∧
      t.rs = .faulted (.outOfRangeAddress 8) 0x00#8 0xA0#8 := ⟨_, by decide, rfl, by decide⟩
theorem witness_StepKeepsInvariant :
    ∃ t, (boot [0x45#8, 0x07#8]).Inv ∧ step (boot [0x45#8, 0x07#8]) = .next t :=
  ⟨_, ⟨by decide, by decide, trivial⟩, rfl⟩
theorem witness_FinishedRunKeepsItsState : (runFor 1 (boot [0x01#8])).rs ≠ .running := by decide
theorem witness_ZeroMemoryRunsNops : State.reset.rs = .running ∧ ∀ a : Byte, State.reset.byteAt a = 0 :=
  ⟨rfl, fun _ => rfl⟩
theorem witness_FirstOperandAboveSevenFaults : 8 ≤ (8#8 : Byte).toNat ∧ 8 ≤ (255#8 : Byte).toNat := by decide
theorem witness_SecondOperandAboveSevenFaults : 8 ≤ (8#8 : Byte).toNat ∧ 8 ≤ (255#8 : Byte).toNat := by decide
theorem witness_LdiLoadsTheImmediate :
    8 ≤ (8#8 : Byte).toNat ∧ 8 ≤ (255#8 : Byte).toNat ∧ (1 : Reg) ≠ 0 := by decide
theorem witness_AddWritesTheWrappedSum :
    8 ≤ (8#8 : Byte).toNat ∧ 8 ≤ (255#8 : Byte).toNat ∧ (7 : Reg) ≠ 0 := by decide
theorem witness_MulWritesTheWrappedProduct : (7 : Reg) ≠ 0 := by decide
theorem witness_PushStoresThenDecrements : (0 : Reg) ≠ 7 ∧ (6 : Reg) ≠ 7 := by decide
theorem witness_CallPushesTheReturnAddress : (0 : Reg) ≠ 7 ∧ (6 : Reg) ≠ 7 := by decide
theorem witness_RetPopsIntoTheProgramCounter : (0 : Reg) ≠ 7 ∧ (6 : Reg) ≠ 7 := by decide
theorem witness_PopIncrementsReadsAndClears : (0 : Reg) ≠ 7 ∧ (1 : Reg) ≠ 0 ∧ (1 : Reg) ≠ 7 := by decide
theorem witness_OnlyCallAndRetEscapeTheAdvance :
    Instr.hlt.wf = true ∧ (∀ o, Instr.hlt ≠ .call o) ∧ Instr.hlt ≠ .ret :=
  ⟨by decide, (fun _ h => by cases h), by decide⟩
theorem witness_FlagsAreExclusiveAndNeverCleared :
    let s := (boot [0xA0#8, 0x00#8, 0x01#8]).setFlags .less
    ∃ t, step s = .next t ∧ s.fl.atMostOne = true ∧ s.fl ≠ Flags.clear := ⟨_, rfl, by decide, by decide⟩
theorem witness_OnlyCmpWritesTheFlags :
    ∃ t, exec (.mul 0 7) State.reset = .next t ∧ ∀ a b : Byte, Instr.mul 0 7 ≠ .cmp a b :=
  ⟨_, rfl, (fun _ _ h => by cases h)⟩
theorem witness_OutputOnlyGrowsAndOnlyByPrn :
    ∃ t u, exec (.pop 7) State.reset = .next t ∧ (∀ o : Byte, Instr.pop 7 ≠ .prn o) ∧
      step (boot [0x47#8, 0x07#8]) = .next u := ⟨_, _, rfl, (fun _ h => by cases h), rfl⟩
theorem witness_HaltedOnlyByHlt :
    ∃ t u, (boot [0x01#8]).rs = .running ∧ step (boot [0x01#8]) = .next t ∧ t.rs = .halted ∧
      step (boot [0xFF#8]) = .next u ∧ u.rs ≠ .halted := ⟨_, _, by decide, rfl, by decide, rfl, by decide⟩
theorem witness_OnlyStackInstructionsWriteMemory :
    ∃ t, exec (.ldi 7 1) State.reset = .next t ∧
      (∀ o : Byte, Instr.ldi 7 1 ≠ .push o ∧ Instr.ldi 7 1 ≠ .pop o ∧ Instr.ldi 7 1 ≠ .call o) ∧ Instr.ldi 7 1 ≠ .ret :=
  ⟨_, rfl, fun _ => ⟨(fun h => by cases h), (fun h => by cases h), (fun h => by cases h)⟩, by decide⟩
theorem witness_OnlyDestinationsAndTheStackPointerChange :
    ∃ t u, exec (.ldi 0 1) State.reset = .next t ∧ t.reg 0 ≠ State.reset.reg 0 ∧
      exec .ret State.reset = .next u ∧ u.reg 7 ≠ State.reset.reg 7 := ⟨_, _, rfl, by decide, rfl, by decide⟩
theorem witness_CallThenBalancedRetReturns :
    ∃ t, exec (.call 1) State.reset = .next t ∧ (t.setReg 0 9).sp = t.sp ∧
      (t.setReg 0 9).byteAt State.reset.sp = t.byteAt State.reset.sp := ⟨_, rfl, by decide, by decide⟩
theorem witness_AluDivModOrDivisionByZero : (1#8 : Byte) ≠ 0 ∧ (255#8 : Byte) ≠ 0 := by decide
theorem witness_ArithmeticKindsLeaveTheFlags :
    AluKind.div ≠ .cmp ∧ (∃ t, deliver 0 (alu .div 6 3) State.reset = .done t) ∧
      ∃ e t, deliver 0 (alu .div 6 0) State.reset = .raised e t := ⟨by decide, ⟨_, rfl⟩, ⟨_, _, rfl⟩⟩
theorem witness_MemoriesThatReadAlikeAreEqual :
    Memory.wf [(0, 1#8), (255, 2#8)] ∧ Memory.wf [(0, 1#8), (255, 2#8)] := by decide
theorem witness_LoadCopiesWhatFits :
    (0xFE#8 : Byte).toNat + [0xAA#8, 0xBB#8].length ≤ 256 ∧ 256 < (0xFF#8 : Byte).toNat + [0xAA#8, 0xBB#8].length := by decide

end Sys2Proof.Tests
end

section
/-! The flags (10_state.md R16): which values are exclusive, and all that a step can do to them. -/

namespace Sys2Proof.Machine

/-! ### The flags' values -/

@[simp] theorem Flags.atMostOne_clear : Flags.clear.atMostOne = true := rfl

@[simp] theorem Flags.atMostOne_ofOutcome (c : CompareOutcome) : (Flags.ofOutcome c).atMostOne = true := by
  cases c <;> rfl

@[simp] theorem Flags.ofOutcome_ne_clear (c : CompareOutcome) : Flags.ofOutcome c ≠ Flags.clear := by
  cases c <;> decide

theorem Flags.eq_clear_or_ofOutcome : ∀ {f : Flags}, f.atMostOne = true → f = Flags.clear ∨ ∃ c, f = Flags.ofOutcome c
  | ⟨false, false, false⟩, _ => .inl rfl
  | ⟨true, false, false⟩, _ => .inr ⟨.equal, rfl⟩
  | ⟨false, true, false⟩, _ => .inr ⟨.less, rfl⟩
  | ⟨false, false, true⟩, _ => .inr ⟨.greater, rfl⟩

theorem Flags.atMostOne_iff (f : Flags) :
    f.atMostOne = true ↔ f = Flags.clear ∨ ∃ c, f = Flags.ofOutcome c := by
  refine ⟨Flags.eq_clear_or_ofOutcome, ?_⟩
  rintro (rfl | ⟨c, rfl⟩)
  · exact Flags.atMostOne_clear
  · exact Flags.atMostOne_ofOutcome c

/-- The field `fl <- c` leaves has the named flag set and no other. -/
theorem Flags.ofOutcome_fields (c : CompareOutcome) :
    (Flags.ofOutcome c).equal = decide (c = .equal) ∧ (Flags.ofOutcome c).less = decide (c = .less) ∧
      (Flags.ofOutcome c).greater = decide (c = .greater) := by
  cases c <;> decide

/-! ### What an instruction and a step do to the flags -/

/-- Only a CMP of two registers writes the flags, and it writes the outcome of comparing them (R16, R17). -/
theorem exec_fl_cases {i : Instr} {s t : State} (h : exec i s = .next t) :
    t.fl = s.fl ∨ ∃ a b, i = .cmp (regOperand a) (regOperand b) ∧
      t.fl = Flags.ofOutcome (compareBytes (s.reg a) (s.reg b)) := by
  rcases exec_cases s h with ⟨k, -, -, -, rfl⟩ | ⟨-, rfl⟩ | ⟨-, rfl⟩ | ⟨-, rfl⟩ | ⟨r, v, -, rfl⟩ | ⟨r, -, rfl⟩ |
    ⟨r, -, rfl⟩ | ⟨r, -, rfl⟩ | ⟨r, -, rfl⟩ | ⟨a, b, -, rfl⟩ | ⟨a, b, -, rfl⟩ | ⟨a, b, hi, rfl⟩
  on_goal 12 => exact .inr ⟨a, b, hi, by simp⟩ -- CMP, the last form
  all_goals exact .inl (by simp)

theorem exec_cmp_fl (a b : Reg) (s : State) :
    ∃ t, exec (.cmp (regOperand a) (regOperand b)) s = .next t ∧
      t.fl = Flags.ofOutcome (compareBytes (s.reg a) (s.reg b)) :=
  ⟨_, exec_cmp s a b, by simp⟩

/-- All a step can do to the flags: keep them, or write a comparison's outcome. -/
theorem step_fl_cases {s t : State} (h : step s = .next t) : t.fl = s.fl ∨ ∃ c, t.fl = Flags.ofOutcome c := by
  rcases step_cases h with ⟨-, rfl⟩ | ⟨-, i, rest, -, he⟩ | ⟨-, -, rfl⟩
  · exact .inl rfl
  · rcases exec_fl_cases he with hk | ⟨a, b, -, hc⟩
    · exact .inl hk
    · exact .inr ⟨_, hc⟩
  · exact .inl (by simp)

/-- A property of the flags that every comparison's outcome has is kept by every step. -/
theorem step_fl_preserves {P : Flags → Prop} (hP : ∀ c, P (Flags.ofOutcome c)) {s t : State}
    (h : step s = .next t) (hs : P s.fl) : P t.fl := by
  rcases step_fl_cases h with hk | ⟨c, hc⟩
  · exact hk ▸ hs
  · exact hc ▸ hP c

/-- Settles O31: a step keeps the flags or writes a comparison's outcome, and every such outcome has exactly one flag set. -/
theorem flagsAreExclusiveAndNeverCleared : Obligations.FlagsAreExclusiveAndNeverCleared := by
  refine ⟨Flags.atMostOne_iff, rfl, fun a b s => ?_, Flags.ofOutcome_fields, fun s t h => ?_, fun s t h => ?_⟩
  · obtain ⟨t, he, hf⟩ := exec_cmp_fl a b s
    exact ⟨t, _, he, hf⟩
  · exact step_fl_preserves (P := fun f => f.atMostOne = true) Flags.atMostOne_ofOutcome h
  · exact step_fl_preserves (P := fun f => f ≠ Flags.clear) Flags.ofOutcome_ne_clear h

end Sys2Proof.Machine
end

section
/-! The two write primitives (20_memory.md R40), each set against the other array and the rest of the state. -/

namespace Sys2Proof.Machine

/-- Settles O47: a read after a write in the same array goes by `storeByte_byteAt` or `setReg_reg`; the other array and the rest of the state are
untouched fields of the record. -/
theorem writesAreLimitedToTheNamedCell : Obligations.WritesAreLimitedToTheNamedCell := by
  refine ⟨fun s a v b => ?cell, fun s a v k => s.storeByte_reg a v k, fun s r k v => ?register,
    fun s r v b => s.setReg_byteAt r v b, fun s r a v => ?rest⟩
  case cell => simp only [State.storeByte_byteAt, eq_comm]
  case register => simp only [State.setReg_reg, eq_comm]
  case rest =>
    exact ⟨s.storeByte_pc a v, s.storeByte_fl a v, s.storeByte_rs a v, s.storeByte_out a v,
      s.setReg_pc r v, s.setReg_fl r v, s.setReg_rs r v, s.setReg_out r v⟩

end Sys2Proof.Machine
end

section
/-! Instruction lengths (30_encoding.md R60, R62): a decoded instruction's bytes are its encoding, whose length its opcode gives; a byte that is
not dispatched has no length, because the cycle reads nothing after it. -/

namespace Sys2Proof

/-! ### What the decoder consumed -/

theorem takeOne_eq_instr_iff {f : Byte → Instr} {bytes rest : List Byte} {i : Instr} :
    takeOne f bytes = .instr i rest ↔ ∃ o1, f o1 = i ∧ bytes = o1 :: rest := by
  cases bytes <;> simp [takeOne]

theorem takeTwo_eq_instr_iff {f : Byte → Byte → Instr} {bytes rest : List Byte} {i : Instr} :
    takeTwo f bytes = .instr i rest ↔ ∃ o1 o2, f o1 o2 = i ∧ bytes = o1 :: o2 :: rest := by
  rcases bytes with _ | ⟨b1, _ | ⟨b2, tail⟩⟩ <;> simp [takeTwo]

/-- The operand decoder of a dispatched byte reads an encoding; one case per format of R60. -/
theorem cons_eq_encode_append_of_decodeOperands {op : Byte} {h : Handler} {bytes rest : List Byte} {i : Instr}
    (hop : dispatch op = some h) (hd : decodeOperands h bytes = .instr i rest) : op :: bytes = encode i ++ rest := by
  have hrow := opcode_of_dispatch hop
  cases h <;> obtain rfl : op = _ := by simpa [dispatchTable] using hrow
  case nop | ret | hlt =>
    cases hd
    rfl
  case prn | push | pop | call =>
    obtain ⟨o1, rfl, rfl⟩ := takeOne_eq_instr_iff.mp hd
    rfl
  case ldi | add | mul | cmp =>
    obtain ⟨o1, o2, rfl, rfl⟩ := takeTwo_eq_instr_iff.mp hd
    rfl

/-- A decoded instruction's bytes are its encoding (the other direction of `decode_encode_append`). -/
theorem eq_encode_append_of_decode {bytes rest : List Byte} {i : Instr} (hd : decode bytes = .instr i rest) :
    bytes = encode i ++ rest := by
  cases bytes with
  | nil => cases hd
  | cons op tail =>
    rw [decode_cons] at hd
    cases hop : dispatch op with
    | none => simp [hop] at hd
    | some h => exact cons_eq_encode_append_of_decodeOperands hop (by simpa [hop] using hd)

/-- The per-instruction family `EncodedLength`, whole. -/
theorem encodedLength : ∀ i : Instr, Laws.EncodedLength.Statement i
  | .nop => Laws.EncodedLength.nop
  | .ldi o1 o2 => Laws.EncodedLength.ldi o1 o2
  | .prn o1 => Laws.EncodedLength.prn o1
  | .add o1 o2 => Laws.EncodedLength.add o1 o2
  | .mul o1 o2 => Laws.EncodedLength.mul o1 o2
  | .cmp o1 o2 => Laws.EncodedLength.cmp o1 o2
  | .push o1 => Laws.EncodedLength.push o1
  | .pop o1 => Laws.EncodedLength.pop o1
  | .call o1 => Laws.EncodedLength.call o1
  | .ret => Laws.EncodedLength.ret
  | .hlt => Laws.EncodedLength.hlt

end Sys2Proof

namespace Sys2Proof.Machine

variable {s : State}

/-! ### A byte that is not dispatched -/

/-- The cycle reads no operand of a byte that is not dispatched (40_cycle.md R82). -/
theorem fetchBytes_of_undispatched (hd : dispatch (s.byteAt s.pc) = none) : s.fetchBytes = [s.byteAt s.pc] := by
  simp [State.fetchBytes, State.operandBytes, hd]

theorem step_of_undispatched (hr : s.rs = .running) (hd : dispatch (s.byteAt s.pc) = none) :
    step s = .next (s.enterFault (.unknownOpcode (s.byteAt s.pc)) s.pc (s.byteAt s.pc)) := by
  have hdec : decode s.fetchBytes = .unknownOpcode (s.byteAt s.pc) := by
    rw [fetchBytes_of_undispatched hd]
    exact (decode_eq_unknownOpcode_iff [] _).mpr hd
  simp only [step_of_running hr, cycle, hdec, raise]

/-- Settles O4: what was decoded is an encoding, so the decoded length is the encoded one; the step on a byte that is not dispatched enters the
fault state, which keeps the program counter. -/
theorem instructionLengthIsReadFromTheOpcode : Obligations.InstructionLengthIsReadFromTheOpcode := by
  refine ⟨fun op bytes rest i hd => ?decoded, fun op bytes => (decode_eq_unknownOpcode_iff bytes op).mpr,
    fun s hr hd => ⟨fetchBytes_of_undispatched hd, _, step_of_undispatched hr hd, s.enterFault_pc ..⟩⟩
  case decoded =>
    have henc : op :: bytes = encode i ++ rest := eq_encode_append_of_decode hd
    obtain ⟨rfl, -⟩ : op = i.opcode ∧ bytes = i.operands ++ rest := by simpa [encode] using henc
    obtain ⟨hlen, hmax⟩ := encodedLength i
    exact ⟨by rw [henc, List.length_append, hlen, operandCount], hlen ▸ hmax⟩

end Sys2Proof.Machine
end

section
/-! The advance (40_cycle.md R86): every instruction but CALL and RET leaves the program counter just past its own bytes; those two leave
the value they computed. -/

namespace Sys2Proof.Machine

/-- An instruction outside {CALL, RET} ends just past its encoding, HLT included (R86; decision D12, log 12). -/
theorem exec_pc_eq_add_length {i : Instr} (s : State) (hw : i.wf = true) (hcall : ∀ o, i ≠ .call o) (hret : i ≠ .ret) :
    ∃ t, exec i s = .next t ∧ t.pc = s.pc + BitVec.ofNat 8 (encode i).length := by
  rcases Instr_wf_cases i hw with
    rfl | rfl | rfl | ⟨r, v, rfl⟩ | ⟨r, rfl | rfl | rfl | rfl⟩ | ⟨a, b, rfl | rfl | rfl⟩
  · exact ⟨_, exec_nop s, rfl⟩
  · exact absurd rfl hret
  · exact ⟨_, exec_hlt s, rfl⟩
  · exact ⟨_, exec_ldi s r v, rfl⟩
  · exact ⟨_, exec_prn s r, rfl⟩
  · exact ⟨_, exec_push s r, rfl⟩
  · exact ⟨_, exec_pop s r, rfl⟩
  · exact absurd rfl (hcall _)
  · exact ⟨_, exec_add s a b, rfl⟩
  · exact ⟨_, exec_mul s a b, rfl⟩
  · exact ⟨_, exec_cmp s a b, rfl⟩

/-- The address just past an instruction at `p`, as R86 writes it: p + 1 + n modulo 256, with n from bits 7:6 of the opcode. -/
theorem toNat_add_length (p : Byte) (i : Instr) :
    (p + BitVec.ofNat 8 (encode i).length).toNat = (p.toNat + 1 + i.opcode.toNat / 64) % 256 := by
  obtain ⟨hlen, -⟩ := encodedLength i
  rw [hlen, operandCount]
  simp [BitVec.toNat_add, Nat.add_assoc]

/-- CALL ends at its register's value, without an increment; the jump itself changes no register (R143). -/
theorem exec_call_pc (r : Reg) (s : State) : ∃ t, exec (.call (regOperand r)) s = .next t ∧ t.pc = t.reg r :=
  ⟨_, exec_call s r, by simp only [State.setPc_pc, State.setPc_reg]⟩

/-- RET ends at the popped byte, which the clear of its cell does not reach (R144). -/
theorem exec_ret_pc (s : State) : ∃ t, exec .ret s = .next t ∧ t.pc = s.byteAt (s.sp + 1) :=
  ⟨_, exec_ret s, by simp only [State.clearTop_pc, State.setPc_pc]⟩

/-- Settles O30: outside {CALL, RET} the program counter advances by the encoded length, which is 1 + n. -/
theorem onlyCallAndRetEscapeTheAdvance : Obligations.OnlyCallAndRetEscapeTheAdvance := by
  refine ⟨fun i s hw hcall hret => ?advance, exec_call_pc, exec_ret_pc⟩
  case advance =>
    obtain ⟨t, he, hpc⟩ := exec_pc_eq_add_length s hw hcall hret
    exact ⟨t, he, by rw [hpc, toNat_add_length]⟩

end Sys2Proof.Machine
end

section
/-! The ALU on values (41_alu.md R104 to R112) and the delivery of what it answers (R100): a value goes to the destination register, a
comparison outcome to the flags, an error to neither. -/

namespace Sys2Proof.Machine

/-! ### Delivering an outcome -/

@[simp] theorem deliver_value (d : Reg) (v : Byte) (s : State) : deliver d (.value v) s = .done (s.setReg d v) := rfl

@[simp] theorem deliver_compare (d : Reg) (c : CompareOutcome) (s : State) :
    deliver d (.compare c) s = .done (s.setFlags c) := rfl

@[simp] theorem deliver_error (d : Reg) (e : ErrorCondition) (s : State) : deliver d (.error e) s = .raised e s := rfl

/-- Delivering anything but a comparison outcome leaves the flags, whether the handler completes or raises. -/
theorem deliver_fl_of_ne_compare {d : Reg} {o : AluOutcome} {s t : State} (ho : ∀ c, o ≠ .compare c)
    (h : deliver d o s = .done t ∨ ∃ e, deliver d o s = .raised e t) : t.fl = s.fl := by
  cases o with
  | value v =>
    obtain rfl : s.setReg d v = t := by simpa using h
    exact s.setReg_fl d v
  | compare c => exact absurd rfl (ho c)
  | error e =>
    obtain rfl : s = t := by simpa using h
    rfl

/-! ### What the ALU answers -/

/-- The seven arithmetic kinds answer a value or, DIV and MOD only, an error (R112). -/
theorem alu_ne_compare {k : AluKind} (hk : k ≠ .cmp) (a b : Byte) (c : CompareOutcome) : alu k a b ≠ .compare c := by
  cases k with
  | cmp => exact absurd rfl hk
  | inc | dec | add | sub | mul => simp [alu]
  | div | mod =>
    simp only [alu]
    split <;> simp

/-- Settles O45: an arithmetic kind gives no comparison outcome, and only such an outcome is delivered to the flags; the one CMP gives is
delivered nowhere else. -/
theorem arithmeticKindsLeaveTheFlags : Obligations.ArithmeticKindsLeaveTheFlags := by
  refine ⟨fun k a b hk => alu_ne_compare hk a b,
    fun k a b d s t hk => deliver_fl_of_ne_compare (alu_ne_compare hk a b), fun a b d s => ?compared⟩
  case compared =>
    exact ⟨compareBytes a b, s.setFlags (compareBytes a b), alu_cmp a b, by rw [alu_cmp, deliver_compare],
      s.setFlags_fl _, s.setFlags_reg _⟩

/-- Settles O41: `alu_add` and `alu_mul` give the wrapped sum and product, the values `exec_add` and `exec_mul` write. -/
theorem aluAddAndMulWrap : Obligations.AluAddAndMulWrap := by
  refine ⟨fun a b => ⟨a + b, alu_add a b, BitVec.toNat_add a b⟩, fun a b => ⟨a * b, alu_mul a b, BitVec.toNat_mul a b⟩,
    fun a b s => ⟨_, exec_add s a b, ?sum⟩, fun a b s => ⟨_, exec_mul s a b, ?product⟩⟩
  case sum => rw [alu_add, State.setPc_reg, State.setReg_reg_self]
  case product => rw [alu_mul, State.setPc_reg, State.setReg_reg_self]

/-- Settles O42: the outcome is `compareBytes`, the unsigned order, and `exec_cmp` writes it to the flags alone. -/
theorem aluComparesUnsigned : Obligations.AluComparesUnsigned := by
  refine ⟨fun a b => ⟨compareBytes a b, alu_cmp a b, compareBytes_eq_equal a b, compareBytes_eq_less a b,
    compareBytes_eq_greater a b⟩, fun a b s => ⟨_, _, exec_cmp s a b, alu_cmp _ _, ?flags, fun k => ?registers⟩⟩
  case flags => rw [State.setPc_fl, State.setFlags_fl]
  case registers => rw [State.setPc_reg, State.setFlags_reg]

end Sys2Proof.Machine
end

section
/-! Decode against encode (30_encoding.md R60 to R75): the two directions put together, and the bytes the decoder rejects. -/

namespace Sys2Proof

/-- Settles O1: what was decoded is an encoding (`eq_encode_append_of_decode`), and an encoding decodes to its instruction. -/
theorem decodeReturnsExactlyWhatEncodeWrote : Obligations.DecodeReturnsExactlyWhatEncodeWrote := by
  refine fun bytes rest i => ⟨eq_encode_append_of_decode, ?encoded⟩
  case encoded =>
    rintro rfl
    exact decode_encode_append rest i

/-- The dispatch table's key column, its bytes written out (R66). -/
theorem dispatch_eq_none_iff (op : Byte) : dispatch op = none ↔
    op ∉ [0x00#8, 0x82#8, 0x47#8, 0xA0#8, 0xA2#8, 0xA7#8, 0x45#8, 0x46#8, 0x50#8, 0x11#8, 0x01#8] := by
  revert op
  decide

/-- Top bits 0b11 would mean three operand bytes, and a dispatched byte has at most two (R61). -/
theorem dispatch_eq_none_of_le {op : Byte} (h : 0xC0 ≤ op.toNat) : dispatch op = none := by
  by_contra hd
  have hcount : op.toNat / 64 ≤ 2 := operandCount_le_of_dispatch hd
  omega

/-- Settles O3: rejection is failing the dispatch, and the undispatched bytes are counted over the whole byte range. -/
theorem undispatchedOpcodesAreRejected : Obligations.UndispatchedOpcodesAreRejected := by
  refine ⟨fun op rest => ?rejected, fun op rest h => ?topBits, by decide +kernel⟩
  case rejected => rw [decode_eq_unknownOpcode_iff, dispatch_eq_none_iff]
  case topBits => exact (decode_eq_unknownOpcode_iff rest op).mpr (dispatch_eq_none_of_le h)

/-- Settles O2: each word is the encoding of its instruction, with no byte after it. -/
theorem writtenOutWordsDecode : Obligations.WrittenOutWordsDecode :=
  ⟨decode_encode_append [] .nop, decode_encode_append [] (.ldi 0 8), decode_encode_append [] (.prn 1),
    decode_encode_append [] (.add 2 3), decode_encode_append [] (.mul 4 5), decode_encode_append [] (.cmp 6 7),
    decode_encode_append [] (.push 7), decode_encode_append [] (.pop 6), decode_encode_append [] (.call 5),
    decode_encode_append [] .ret, decode_encode_append [] .hlt⟩

end Sys2Proof
end

section
/-! Memory as data (10_state.md R21; log 28): a canonical memory's entries are exactly what it reads, so reading alike is being equal; and the
host's load (50_interfaces.md R162), which is a copy of cells. -/

namespace Sys2Proof.Machine

/-! ### The entries of a memory and what it reads -/

theorem Memory.read_of_mem {m : Memory} (hs : m.Pairwise fun c d => c.1 < d.1) {c : Host.Cell} (hc : c ∈ m) :
    m.read c.1 = c.2 := by
  induction m with
  | nil => cases hc
  | cons d rest ih =>
    obtain ⟨hd, hrest⟩ := List.pairwise_cons.mp hs
    rw [Memory.read_cons]
    rcases List.mem_cons.mp hc with rfl | hc
    · exact if_pos rfl
    · rw [if_neg (hd c hc).ne, ih hrest hc]

/-- An address that reads as something else than an unlisted one has an entry. -/
theorem Memory.mem_of_read_ne {m : Memory} {a : Nat} (h : m.read a ≠ unlistedByte) : (a, m.read a) ∈ m := by
  induction m with
  | nil => exact absurd rfl h
  | cons d rest ih =>
    rw [Memory.read_cons] at h ⊢
    split at h
    next hd => simp [← hd]
    next hd => simpa [hd] using .inr (ih h)

/-- Every entry of a canonical memory is one of any memory that reads as it does. -/
theorem Memory.subset_of_read_eq {m n : Memory} (hm : m.wf) (h : ∀ a : Byte, m.read a.toNat = n.read a.toNat) : m ⊆ n := by
  intro c hc
  obtain ⟨hs, hcells⟩ := hm
  obtain ⟨haddr, hval⟩ := hcells c hc
  have hread : n.read c.1 = c.2 := by
    have hbyte := h (BitVec.ofNat 8 c.1)
    rw [BitVec.toNat_ofNat, Nat.mod_eq_of_lt haddr] at hbyte
    rw [← hbyte, Memory.read_of_mem hs hc]
  have hmem : (c.1, n.read c.1) ∈ n := Memory.mem_of_read_ne (hread ▸ hval)
  rwa [hread] at hmem

/-- Settles O48: each memory's entries are among the other's, and a strictly rising list is fixed by its entries. -/
theorem memoriesThatReadAlikeAreEqual : Obligations.MemoriesThatReadAlikeAreEqual := by
  intro m n hm hn h
  have : Std.Irrefl fun c d : Host.Cell => c.1 < d.1 := ⟨fun c => lt_irrefl c.1⟩
  have : Std.Antisymm fun c d : Host.Cell => c.1 < d.1 := ⟨fun _ _ hcd hdc => absurd hdc hcd.asymm⟩
  exact List.Subset.antisymm_of_pairwise hm.1 hn.1 (Memory.subset_of_read_eq hm h)
    (Memory.subset_of_read_eq hn fun a => (h a).symm)

/-! ### The host's load -/

theorem load_of_fits {bytes : List Byte} {start : Byte} (s : State) (h : start.toNat + bytes.length ≤ 256) :
    load bytes start s = .loaded { s with mem := s.mem.copy start.toNat bytes } :=
  if_pos h

theorem load_of_not_fits {bytes : List Byte} {start : Byte} (s : State) (h : 256 < start.toNat + bytes.length) :
    load bytes start s = .failed (.programLoadError "image does not fit in memory") :=
  if_neg h.not_ge

/-- Byte `k` of an image that fits lies `k` cells after its start. -/
theorem Memory.read_copy_getElem (m : Memory) {bytes : List Byte} {start : Byte}
    (hfit : start.toNat + bytes.length ≤ 256) {k : Nat} (hk : k < bytes.length) :
    (m.copy start.toNat bytes).read (start + BitVec.ofNat 8 k).toNat = bytes[k] := by
  have haddr : (start + BitVec.ofNat 8 k).toNat = start.toNat + k := by
    rw [BitVec.toNat_add, BitVec.toNat_ofNat]
    omega
  rw [haddr, Memory.read_copy, dif_pos (by omega)]
  simp

theorem Memory.read_copy_of_outside (m : Memory) {bytes : List Byte} {a b : Nat}
    (h : b < a ∨ a + bytes.length ≤ b) : (m.copy a bytes).read b = m.read b := by
  rw [Memory.read_copy, dif_neg (by omega)]

/-- Settles O49: the copy is read by `Memory.read_copy` inside and outside the image, and is the only field that changes. -/
theorem loadCopiesWhatFits : Obligations.LoadCopiesWhatFits := by
  refine ⟨fun bytes start s hfit => ⟨_, load_of_fits s hfit, fun k hk => s.mem.read_copy_getElem hfit hk,
      fun a ha => s.mem.read_copy_of_outside ha, rfl, rfl, rfl, rfl, rfl, fun hwf => ?canonical⟩,
    fun bytes start s h => ⟨_, load_of_not_fits s h⟩⟩
  case canonical => exact Memory.copy_wf hwf start.toNat bytes hfit

end Sys2Proof.Machine
end

section
/-! How an instruction can end (40_cycle.md R84, R87; 60_exceptions.md R185): a well-formed one completes, any other stops the unit for its
first register operand above 7. -/

namespace Sys2Proof.Machine

/-! ### Well-formed instructions -/

/-- A well-formed instruction completes; only HLT touches the run state (R187). -/
theorem exec_of_wf {i : Instr} (s : State) (hw : i.wf = true) :
    ∃ t, exec i s = .next t ∧ t.rs = if i = .hlt then .halted else s.rs := by
  rcases Instr_wf_cases i hw with
    rfl | rfl | rfl | ⟨r, v, rfl⟩ | ⟨r, rfl | rfl | rfl | rfl⟩ | ⟨a, b, rfl | rfl | rfl⟩
  · exact ⟨_, exec_nop s, rfl⟩
  · exact ⟨_, exec_ret s, rfl⟩
  · exact ⟨_, exec_hlt s, rfl⟩
  · exact ⟨_, exec_ldi s r v, rfl⟩
  · exact ⟨_, exec_prn s r, rfl⟩
  · exact ⟨_, exec_push s r, rfl⟩
  · exact ⟨_, exec_pop s r, rfl⟩
  · exact ⟨_, exec_call s r, rfl⟩
  · exact ⟨_, exec_add s a b, rfl⟩
  · exact ⟨_, exec_mul s a b, rfl⟩
  · exact ⟨_, exec_cmp s a b, rfl⟩

/-- Settles O10: `exec_of_wf`, over every well-formed instruction. -/
theorem wellFormedInstructionsComplete : Obligations.WellFormedInstructionsComplete :=
  fun _ s hw => exec_of_wf s hw

/-- The two ends of an instruction: it stops the unit for an operand above 7, with the run state alone written, or it completes. -/
theorem exec_rs_cases {i : Instr} {s t : State} (h : exec i s = .next t) :
    (∃ k ∈ i.operands, 8 ≤ k.toNat ∧ t = s.enterFault (.outOfRangeAddress k) s.pc i.opcode) ∨
      t.rs = if i = .hlt then .halted else s.rs := by
  cases hw : i.wf with
  | false =>
    obtain ⟨k, hk, h8, he⟩ := exec_of_not_wf s i hw
    cases h.symm.trans he
    exact .inl ⟨k, hk, h8, rfl⟩
  | true =>
    obtain ⟨u, he, hrs⟩ := exec_of_wf s hw
    cases h.symm.trans he
    exact .inr hrs

/-! ### Register operands above 7 -/

/-- Settles O17: each of the eight checks its first operand first (R84; decision D14, log 14). -/
theorem firstOperandAboveSevenFaults : Obligations.FirstOperandAboveSevenFaults := by
  intro o o2 s h
  have one (op : Byte) (k : Reg → Outcome) : withRegister op o s k = raise (.outOfRangeAddress o) op s :=
    withRegister_out_of_range s op h k
  have two (op : Byte) (k : Reg → Reg → Outcome) : withRegisters op o o2 s k = raise (.outOfRangeAddress o) op s :=
    withRegisters_first_out_of_range s op o2 h k
  exact ⟨one opcLdi _, one opcPrn _, two opcAdd _, two opcMul _, two opcCmp _, one opcPush _, one opcPop _, one opcCall _⟩

/-- Settles O18: behind a first operand in range, the three check their second one (R84; decision D14, log 14). -/
theorem secondOperandAboveSevenFaults : Obligations.SecondOperandAboveSevenFaults := by
  intro r o s h
  have two (op : Byte) (k : Reg → Reg → Outcome) :
      withRegisters op (regOperand r) o s k = raise (.outOfRangeAddress o) op s :=
    withRegisters_second_out_of_range s op r h k
  exact ⟨two opcAdd _, two opcMul _, two opcCmp _⟩

/-! ### No abort -/

theorem exists_exec_eq_next (i : Instr) (s : State) : ∃ t, exec i s = .next t := by
  cases hw : i.wf with
  | false =>
    obtain ⟨k, -, -, he⟩ := exec_of_not_wf s i hw
    exact ⟨_, he⟩
  | true =>
    obtain ⟨t, he, -⟩ := exec_of_wf s hw
    exact ⟨t, he⟩

theorem exists_step_eq_next (s : State) : ∃ t, step s = .next t := by
  by_cases hr : s.rs = .running
  · rw [step_of_running hr]
    rcases cycle_cases s with ⟨i, rest, -, hc⟩ | ⟨-, hc⟩
    · obtain ⟨t, he⟩ := exists_exec_eq_next i s
      exact ⟨t, hc.trans he⟩
    · exact ⟨_, hc⟩
  · exact ⟨s, step_of_stopped hr⟩

end Sys2Proof.Machine
end

section
/-! Runs (40_cycle.md R88, R89; 50_interfaces.md R163, R164): a stopped unit stays as it is, and the host's runner is the bounded run. -/

namespace Sys2Proof.Machine

/-! ### A stopped unit -/

/-- The host's own runner leaves a stopped unit too (decision D18, log 18). -/
theorem coreRun_of_stopped {s : State} (k : Nat) (h : s.rs ≠ .running) : Host.Core.run Sys2Proof.core k s = .next s := by
  induction k with
  | zero => rfl
  | succ k ih => exact (coreRun_succ (step_of_stopped h)).trans ih

/-- Settles O8: the step, the bounded run and the host's runner all keep a stopped state. -/
theorem stoppedUnitNeverMoves : Obligations.StoppedUnitNeverMoves :=
  fun _ k h => ⟨step_of_stopped h, runFor_of_stopped k h, coreRun_of_stopped k h⟩

/-- Settles O39: HLT leaves a stopped state, and stopping is a matter of the run state alone, whatever the memory. -/
theorem hltStopsForAnyMemory : Obligations.HltStopsForAnyMemory := by
  intro s m k
  have hstop : ({ (s.setRunState .halted).setPc (s.pc + 1) with mem := m } : State).rs ≠ .running := RunState.noConfusion
  exact ⟨_, exec_hlt s, step_of_stopped hstop, runFor_of_stopped k hstop⟩

/-! ### The bounded run -/

theorem runFor_add (j k : Nat) (s : State) : runFor (j + k) s = runFor k (runFor j s) := by
  induction j generalizing s with
  | zero => rw [Nat.zero_add, runFor]
  | succ j ih =>
    by_cases hr : s.rs = .running
    · rw [Nat.add_right_comm, runFor_succ_of_running _ hr, ih, runFor_succ_of_running j hr]
    · simp only [runFor_of_stopped _ hr]

/-- Settles O15: a longer run goes on from where the shorter one ended, and a stopped state stays. -/
theorem finishedRunKeepsItsState : Obligations.FinishedRunKeepsItsState := by
  intro s j k h
  rw [runFor_add, runFor_of_stopped k h]

/-- Every step leaves a next state, so the host's runner never ends early (R163). -/
theorem coreRun_eq_runFor (k : Nat) (s : State) : Host.Core.run Sys2Proof.core k s = .next (runFor k s) := by
  induction k generalizing s with
  | zero => rfl
  | succ k ih =>
    by_cases hr : s.rs = .running
    · obtain ⟨t, ht⟩ := exists_step_eq_next s
      rw [runFor_succ_of_running k hr, stepState_of_next ht]
      exact (coreRun_succ ht).trans (ih t)
    · rw [coreRun_of_stopped _ hr, runFor_of_stopped _ hr]

/-- Settles O9: instructions and steps always leave a next state, hence so does the host's runner. -/
theorem noStepAborts : Obligations.NoStepAborts :=
  ⟨exists_exec_eq_next, exists_step_eq_next, coreRun_eq_runFor⟩

end Sys2Proof.Machine
end

section
/-! The fetch (40_cycle.md R81 to R83; 20_memory.md R43, R52): a cycle runs the instruction whose encoding lies at the program counter, and
nothing else. -/

namespace Sys2Proof.Machine

variable {s : State}

/-- A dispatched byte is fetched with its operands from the cells that follow, addresses modulo 256. -/
theorem fetchBytes_of_dispatched (hd : dispatch (s.byteAt s.pc) ≠ none) :
    s.fetchBytes = (List.range (1 + operandCount (s.byteAt s.pc))).map fun k => s.byteAt (s.pc + BitVec.ofNat 8 k) := by
  obtain ⟨h, hh⟩ := Option.ne_none_iff_exists'.mp hd
  have hle := operandCount_le_of_dispatch hd
  simp only [State.fetchBytes, State.operandBytes, hh]
  generalize operandCount (s.byteAt s.pc) = n at hle
  interval_cases n <;> simp [List.range_succ]

/-- The cells from the program counter on hold the encoding of this instruction. -/
def State.holdsAtPc (s : State) (i : Instr) : Prop :=
  ∀ (k : Nat) (h : k < (encode i).length), s.byteAt (s.pc + BitVec.ofNat 8 k) = (encode i)[k]

theorem State.holdsAtPc.byteAt_pc {i : Instr} (h : s.holdsAtPc i) : s.byteAt s.pc = i.opcode := by
  simpa [encode] using h 0 (by simp [encode])

/-- The fetch reads that encoding and no byte more. -/
theorem fetchBytes_of_holdsAtPc {i : Instr} (h : s.holdsAtPc i) : s.fetchBytes = encode i := by
  obtain ⟨hlen, -⟩ := encodedLength i
  rw [fetchBytes_of_dispatched (h.byteAt_pc ▸ dispatch_opcode_ne_none i), h.byteAt_pc, ← hlen]
  refine List.ext_getElem (by simp) fun k _ hk => ?_
  simpa using h k hk

theorem step_of_holdsAtPc {i : Instr} (hr : s.rs = .running) (h : s.holdsAtPc i) : step s = exec i s := by
  have hdec : decode s.fetchBytes = .instr i [] := by
    rw [fetchBytes_of_holdsAtPc h, ← List.append_nil (encode i), decode_encode_append]
  simp only [step_of_running hr, cycle, hdec]

/-- Settles O6: the hypothesis is `State.holdsAtPc`, written out. -/
theorem instructionInMemoryRuns : Obligations.InstructionInMemoryRuns :=
  fun _ _ => step_of_holdsAtPc

/-- Settles O5: bytes that decode to an instruction begin with its encoding, which is at most the three bytes read. -/
theorem stepRunsTheDecodedInstruction : Obligations.StepRunsTheDecodedInstruction := by
  intro s i rest hr hd
  refine step_of_holdsAtPc hr fun k hk => ?_
  obtain ⟨-, hmax⟩ := encodedLength i
  have hk3 : k < 3 := hk.trans_le hmax
  have hbytes := eq_encode_append_of_decode hd
  have hbyte := List.getElem_of_eq hbytes (i := k) (by simpa using hk3)
  rw [List.getElem_append_left hk] at hbyte
  rw [← hbyte]
  interval_cases k <;> simp

/-- Settles O7: the fetch stops at a byte that is not dispatched, and the step enters the fault state. -/
theorem undispatchedByteFaultsTheUnit : Obligations.UndispatchedByteFaultsTheUnit :=
  ⟨fun _ hr hd => ⟨fetchBytes_of_undispatched hd, step_of_undispatched hr hd⟩, by decide⟩

/-- What a cycle decodes is what it has fetched, whole. -/
theorem fetchBytes_eq_encode_of_decode {i : Instr} {rest : List Byte} (h : decode s.fetchBytes = .instr i rest) :
    s.fetchBytes = encode i := by
  obtain ⟨hlen, -⟩ := encodedLength i
  have henc := eq_encode_append_of_decode h
  have hop : s.byteAt s.pc = i.opcode := (List.cons.inj henc).1
  have hfetched : s.fetchBytes.length = (encode i).length := by
    rw [fetchBytes_of_dispatched (hop ▸ dispatch_opcode_ne_none i), hop, hlen, List.length_map, List.length_range]
  have hrest : rest = [] := by
    rw [henc, List.length_append] at hfetched
    exact List.eq_nil_of_length_eq_zero (by omega)
  rw [henc, hrest, List.append_nil]

/-! ### All-zero memory -/

/-- A zero byte at the program counter is a NOP (decision D3, log 3). -/
theorem stepState_of_zero (hr : s.rs = .running) (h : s.byteAt s.pc = 0) : stepState s = s.setPc (s.pc + 1) := by
  have hnop : s.holdsAtPc .nop := by
    intro k hk
    obtain rfl : k = 0 := Nat.lt_one_iff.mp hk
    exact (congrArg s.byteAt (BitVec.add_zero s.pc)).trans h
  exact stepState_of_next ((step_of_holdsAtPc hr hnop).trans (exec_nop s))

/-- Settles O16: each cycle is one NOP, which leaves the memory all zero. -/
theorem zeroMemoryRunsNops : Obligations.ZeroMemoryRunsNops := by
  intro s k
  induction k generalizing s with
  | zero => intro _ _; simp [runFor]
  | succ k ih =>
    intro hr hz
    have hpc : s.pc + 1 + BitVec.ofNat 8 k = s.pc + BitVec.ofNat 8 (k + 1) := by
      simp [Nat.add_comm k 1, BitVec.ofNat_add, BitVec.add_assoc]
    rw [runFor_succ_of_running k hr, stepState_of_zero hr (hz s.pc), ih (s.setPc (s.pc + 1)) hr hz]
    exact congrArg s.setPc hpc

end Sys2Proof.Machine
end

section
/-! What each kind of state is written by (10_state.md R17, R20, R21, R25): one inversion lemma each for memory, output and registers, from
`exec_cases`. -/

namespace Sys2Proof.Machine

/-- The four instructions that run a stack sequence (43_stack_control_instructions.md R140). -/
def UsesStack (i : Instr) : Prop := i = .ret ∨ ∃ o : Byte, i = .push o ∨ i = .pop o ∨ i = .call o

theorem usesStack_ret : UsesStack .ret := .inl rfl
theorem usesStack_push (o : Byte) : UsesStack (.push o) := .inr ⟨o, .inl rfl⟩
theorem usesStack_pop (o : Byte) : UsesStack (.pop o) := .inr ⟨o, .inr (.inl rfl)⟩
theorem usesStack_call (o : Byte) : UsesStack (.call o) := .inr ⟨o, .inr (.inr rfl)⟩

/-! ### Flags -/

/-- Settles O32: the one form that writes the flags is a CMP. -/
theorem onlyCmpWritesTheFlags : Obligations.OnlyCmpWritesTheFlags := by
  intro i s t h hi
  rcases exec_fl_cases h with hk | ⟨a, b, rfl, -⟩
  · exact hk
  · exact absurd rfl (hi _ _)

/-! ### Memory -/

/-- An instruction leaves the memory, or it uses the stack and writes one byte. -/
theorem exec_mem_cases {i : Instr} {s t : State} (h : exec i s = .next t) :
    t.mem = s.mem ∨ UsesStack i ∧ ∃ a v : Byte, t.mem = s.mem.write a.toNat v := by
  rcases exec_cases s h with ⟨k, -, -, -, rfl⟩ | ⟨-, rfl⟩ | ⟨rfl, rfl⟩ | ⟨-, rfl⟩ | ⟨r, v, -, rfl⟩ | ⟨r, -, rfl⟩ |
    ⟨r, rfl, rfl⟩ | ⟨r, rfl, rfl⟩ | ⟨r, rfl, rfl⟩ | ⟨a, b, -, rfl⟩ | ⟨a, b, -, rfl⟩ | ⟨a, b, -, rfl⟩
  on_goal 3 => exact .inr ⟨usesStack_ret, _, _, State.clearTop_mem _⟩ -- RET
  on_goal 6 => exact .inr ⟨usesStack_push _, _, _, s.push_mem _⟩ -- PUSH; each goal that is closed moves the next one up
  on_goal 6 => exact .inr ⟨usesStack_pop _, _, _, State.clearTop_mem _⟩ -- POP
  on_goal 6 => exact .inr ⟨usesStack_call _, _, _, s.push_mem _⟩ -- CALL
  all_goals exact .inl rfl

/-- Settles O35: an instruction that is none of the four leaves the memory whole. -/
theorem onlyStackInstructionsWriteMemory : Obligations.OnlyStackInstructionsWriteMemory := by
  intro i s t h hi hret a
  rcases exec_mem_cases h with hk | ⟨rfl | ⟨o, hstack⟩, -⟩
  · rw [State.byteAt, hk, State.byteAt]
  · exact absurd rfl hret
  · obtain ⟨hpush, hpop, hcall⟩ := hi o
    exact absurd hstack (by simp [hpush, hpop, hcall])

/-! ### Output -/

/-- Only a PRN of a register emits, and it emits that register's byte (R20). -/
theorem exec_out_cases {i : Instr} {s t : State} (h : exec i s = .next t) :
    t.out = s.out ∨ ∃ r, i = .prn (regOperand r) ∧ t.out = s.out ++ [s.reg r] := by
  rcases exec_cases s h with ⟨k, -, -, -, rfl⟩ | ⟨-, rfl⟩ | ⟨-, rfl⟩ | ⟨-, rfl⟩ | ⟨r, v, -, rfl⟩ | ⟨r, hi, rfl⟩ |
    ⟨r, -, rfl⟩ | ⟨r, -, rfl⟩ | ⟨r, -, rfl⟩ | ⟨a, b, -, rfl⟩ | ⟨a, b, -, rfl⟩ | ⟨a, b, -, rfl⟩
  on_goal 6 => exact .inr ⟨r, hi, rfl⟩ -- PRN
  all_goals exact .inl rfl

/-- Settles O33: a step that runs no instruction keeps the output, and one that does follows `exec_out_cases`. -/
theorem outputOnlyGrowsAndOnlyByPrn : Obligations.OutputOnlyGrowsAndOnlyByPrn := by
  refine ⟨fun i s t h hi => ?instruction, fun s t h => ?step⟩
  case instruction =>
    rcases exec_out_cases h with hk | ⟨r, rfl, -⟩
    · exact hk
    · exact absurd rfl (hi _)
  case step =>
    rcases step_cases h with ⟨-, rfl⟩ | ⟨-, i, rest, -, he⟩ | ⟨-, -, rfl⟩
    · exact .inl rfl
    · rcases exec_out_cases he with hk | ⟨r, -, ho⟩
      · exact .inl hk
      · exact .inr ⟨r, ho⟩
    · exact .inl rfl

/-! ### Registers -/

theorem State.eq_of_setReg_reg_ne {s : State} {r k : Reg} {v : Byte} (h : (s.setReg r v).reg k ≠ s.reg k) : k = r := by
  by_contra hk
  exact h (by rw [State.setReg_reg, if_neg (Ne.symm hk)])

theorem State.eq_of_push_reg_ne {s : State} {v : Byte} {k : Reg} (h : (s.push v).reg k ≠ s.reg k) : k = 7 := by
  by_contra hk
  exact h (by rw [State.push_reg, if_neg hk])

theorem State.eq_of_raiseSp_reg_ne {s : State} {k : Reg} (h : s.raiseSp.reg k ≠ s.reg k) : k = 7 := by
  by_contra hk
  exact h (by rw [State.raiseSp_reg, if_neg hk])

/-- Settles O36: every state `exec_cases` names is made by `setReg`, `push` and `raiseSp`, each of which changes one register. -/
theorem onlyDestinationsAndTheStackPointerChange : Obligations.OnlyDestinationsAndTheStackPointerChange := by
  intro i s t k h hne
  rcases exec_cases s h with ⟨k, -, -, -, rfl⟩ | ⟨-, rfl⟩ | ⟨rfl, rfl⟩ | ⟨-, rfl⟩ | ⟨r, v, rfl, rfl⟩ | ⟨r, -, rfl⟩ |
    ⟨r, rfl, rfl⟩ | ⟨r, rfl, rfl⟩ | ⟨r, rfl, rfl⟩ | ⟨a, b, rfl, rfl⟩ | ⟨a, b, rfl, rfl⟩ | ⟨a, b, -, rfl⟩
  · exact absurd rfl hne -- a fault
  · exact absurd rfl hne -- NOP
  · exact .inr ⟨State.eq_of_raiseSp_reg_ne hne, usesStack_ret⟩
  · exact absurd rfl hne -- HLT
  · obtain rfl := State.eq_of_setReg_reg_ne hne
    exact .inl ⟨v, .inl rfl⟩
  · exact absurd rfl hne -- PRN
  · exact .inr ⟨State.eq_of_push_reg_ne hne, usesStack_push _⟩
  · by_cases hk : k = r -- POP: its destination, or else the stack pointer
    · exact .inl ⟨0, by simp [hk]⟩
    · have hsp : s.raiseSp.reg k ≠ s.reg k := by simpa [State.setReg_reg, Ne.symm hk] using hne
      exact .inr ⟨State.eq_of_raiseSp_reg_ne hsp, usesStack_pop _⟩
  · exact .inr ⟨State.eq_of_push_reg_ne hne, usesStack_call _⟩
  · obtain rfl := State.eq_of_setReg_reg_ne hne
    exact .inl ⟨_, .inr (.inl rfl)⟩
  · obtain rfl := State.eq_of_setReg_reg_ne hne
    exact .inl ⟨_, .inr (.inr (.inl rfl))⟩
  · exact absurd rfl hne -- CMP

end Sys2Proof.Machine
end

section
/-! How a step of a running unit can end, and the invariant every step keeps (60_exceptions.md R181 to R185; decisions D9, D13; logs 9, 13). -/

namespace Sys2Proof.Machine

/-- What decode can raise on the bytes at the program counter (R181, R183). -/
def State.decodeError (s : State) (e : ErrorCondition) : Prop :=
  (e = .unknownOpcode (s.byteAt s.pc) ∧ dispatch (s.byteAt s.pc) = none) ∨
    (dispatch (s.byteAt s.pc) ≠ none ∧
      ∃ k ∈ s.operandBytes (s.byteAt s.pc), 8 ≤ k.toNat ∧ e = .outOfRangeAddress k)

theorem opcode_eq_opcHlt_iff (i : Instr) : i.opcode = opcHlt ↔ i = .hlt := by
  cases i <;> simp [Instr.opcode] <;> decide

theorem State.operandBytes_opcHlt (s : State) : s.operandBytes opcHlt = [] := by
  simp only [State.operandBytes, dispatch_hlt]
  rfl

/-- HLT has no operand, so decode raises nothing on it. -/
theorem State.decodeError.byteAt_pc_ne_opcHlt {s : State} {e : ErrorCondition} (h : s.decodeError e) :
    s.byteAt s.pc ≠ opcHlt := by
  intro hop
  rcases h with ⟨-, hd⟩ | ⟨-, k, hk, -, -⟩
  · simp [hop, dispatch_hlt] at hd
  · simp [hop, State.operandBytes_opcHlt] at hk

/-- All a step of a running unit can do to the run state: it stops for an error of decode with nothing else written, or it completes, and
then it halts exactly on HLT's byte. -/
theorem step_rs_cases {s t : State} (hr : s.rs = .running) (h : step s = .next t) :
    (∃ e, s.decodeError e ∧ t = s.enterFault e s.pc (s.byteAt s.pc)) ∨
      t.rs = if s.byteAt s.pc = opcHlt then .halted else .running := by
  rcases step_cases h with ⟨hstop, -⟩ | ⟨-, i, rest, hd, he⟩ | ⟨-, hd, rfl⟩
  · exact absurd hr hstop
  · obtain ⟨hop, hoperands⟩ : s.byteAt s.pc = i.opcode ∧ s.operandBytes (s.byteAt s.pc) = i.operands :=
      List.cons.inj (fetchBytes_eq_encode_of_decode hd)
    rcases exec_rs_cases he with ⟨k, hk, h8, rfl⟩ | hrs
    · refine .inl ⟨.outOfRangeAddress k, .inr ⟨hop ▸ dispatch_opcode_ne_none i, k, hoperands ▸ hk, h8, rfl⟩, ?_⟩
      rw [hop]
    · exact .inr (by simp only [hrs, hop, opcode_eq_opcHlt_iff, hr])
  · exact .inl ⟨_, .inl ⟨rfl, hd⟩, rfl⟩

/-- Settles O11: a step that does not stop for a decode error does not end Faulted. -/
theorem faultsArePreciseAndFromDecode : Obligations.FaultsArePreciseAndFromDecode := by
  intro s t e p o hr h hf
  rcases step_rs_cases hr h with ⟨e', he, rfl⟩ | hrs
  · obtain ⟨rfl, rfl, rfl⟩ : e' = e ∧ s.pc = p ∧ s.byteAt s.pc = o := by simpa using hf
    exact ⟨rfl, rfl, rfl, he⟩
  · rw [hf] at hrs
    split at hrs <;> cases hrs

/-- Settles O34: a step that completes halts exactly on HLT's byte, and one that faults is not on it. -/
theorem haltedOnlyByHlt : Obligations.HaltedOnlyByHlt := by
  intro s t hr h
  rcases step_rs_cases hr h with ⟨e, he, rfl⟩ | hrs
  · exact iff_of_false (by simp) he.byteAt_pc_ne_opcHlt
  · rw [hrs]
    split
    next hop => exact iff_of_true rfl hop
    next hop => exact iff_of_false (by simp) hop

/-! ### The invariant -/

theorem exec_mem_wf {i : Instr} {s t : State} (h : exec i s = .next t) (hm : s.mem.wf) : t.mem.wf := by
  rcases exec_mem_cases h with hk | ⟨-, a, v, hw⟩
  · exact hk ▸ hm
  · exact hw ▸ Memory.write_wf hm a.isLt v

theorem step_mem_wf {s t : State} (h : step s = .next t) (hm : s.mem.wf) : t.mem.wf := by
  rcases step_cases h with ⟨-, rfl⟩ | ⟨-, i, rest, -, he⟩ | ⟨-, -, rfl⟩
  · exact hm
  · exact exec_mem_wf he hm
  · exact hm

/-- The record an error of decode leaves is true of the state it is left in. -/
theorem State.decodeError.faultRecordTrue {s : State} {e : ErrorCondition} (h : s.decodeError e) :
    (s.enterFault e s.pc (s.byteAt s.pc)).faultRecordTrue := by
  rcases h with ⟨rfl, hd⟩ | ⟨hd, k, hk, h8, rfl⟩
  · exact ⟨rfl, rfl, rfl, hd⟩
  · exact ⟨rfl, rfl, hd, h8, hk⟩

theorem step_faultRecordTrue {s t : State} (h : step s = .next t) (hf : s.faultRecordTrue) : t.faultRecordTrue := by
  by_cases hr : s.rs = .running
  · rcases step_rs_cases hr h with ⟨e, he, rfl⟩ | hrs
    · exact he.faultRecordTrue
    · split at hrs <;> simp [State.faultRecordTrue, hrs]
  · cases (step_of_stopped hr).symm.trans h
    exact hf

/-- Settles O12: each of the three parts is kept by every step. -/
theorem stepKeepsInvariant : Obligations.StepKeepsInvariant := by
  rintro s t ⟨hmem, hflags, hfault⟩ h
  exact {
    memory := step_mem_wf h hmem
    flags := step_fl_preserves (P := fun f => f.atMostOne = true) Flags.atMostOne_ofOutcome h hflags
    fault := step_faultRecordTrue h hfault }

/-! ### The reset state -/

/-- Settles O13: no cell is listed, no flag is set, no fault is recorded. -/
theorem resetMeetsInvariant : Obligations.ResetMeetsInvariant where
  memory := State.reset_mem_wf
  flags := Flags.atMostOne_clear
  fault := trivial

/-- Settles O14: the registers are read one by one; the rest are the fields of `State.reset` (10_state.md R23). -/
theorem resetStateAsSpecified : Obligations.ResetStateAsSpecified :=
  ⟨by decide, rfl, rfl, rfl, fun a => Memory.read_nil a.toNat, rfl⟩

end Sys2Proof.Machine
end

section
/-! The data instructions (42_data_instructions.md R120 to R125) and HLT (43_stack_control_instructions.md R145): result and frame, read off the
state that the lemma of Laws/Exec names. -/

namespace Sys2Proof.Machine

/-- Another register than the written one reads as before. -/
theorem State.setReg_reg_of_ne (s : State) {r k : Reg} (v : Byte) (h : k ≠ r) : (s.setReg r v).reg k = s.reg k := by
  rw [State.setReg_reg, if_neg h.symm]

/-- Settles O19: `exec_nop` writes the program counter alone. -/
theorem nopOnlyAdvances : Obligations.NopOnlyAdvances :=
  fun s => ⟨_, exec_nop s, rfl, fun _ => rfl, rfl, rfl, rfl, fun _ => rfl⟩

/-- Settles O29: `exec_hlt` writes the run state and the program counter. -/
theorem hltHalts : Obligations.HltHalts :=
  fun s => ⟨_, exec_hlt s, rfl, rfl, fun _ => rfl, rfl, rfl, fun _ => rfl⟩

/-- Settles O21: `exec_prn` writes the output and the program counter. -/
theorem prnEmitsTheRegister : Obligations.PrnEmitsTheRegister :=
  fun r s => ⟨_, exec_prn s r, rfl, rfl, fun _ => rfl, rfl, rfl, fun _ => rfl⟩

/-- Settles O20: `exec_ldi` writes one register and the program counter, so PRN then emits what was written there. -/
theorem ldiLoadsTheImmediate : Obligations.LdiLoadsTheImmediate := by
  refine ⟨fun rr vv rest => decode_encode_append rest (.ldi rr vv),
    fun r v s => ⟨_, exec_ldi s r v, s.setReg_reg_self r v, fun k hk => s.setReg_reg_of_ne v hk,
      rfl, rfl, rfl, rfl, fun _ => rfl⟩,
    fun o v s h => (firstOperandAboveSevenFaults o v s h).1, fun r v s => ⟨_, _, exec_ldi s r v, exec_prn _ r, ?emitted⟩⟩
  case emitted => simp

/-- Settles O22: `exec_add` writes the ALU's sum to one register; the errors are those of O17 and O18. -/
theorem addWritesTheWrappedSum : Obligations.AddWritesTheWrappedSum := by
  refine ⟨fun aa bb rest => decode_encode_append rest (.add aa bb),
    fun a b s => ⟨_, exec_add s a b, ?sum, ?alu, fun k hk => s.setReg_reg_of_ne _ hk, rfl, rfl, rfl, rfl, fun _ => rfl⟩,
    fun o1 o2 s h => withRegisters_first_out_of_range s opcAdd o2 h _, fun r o2 s h => (secondOperandAboveSevenFaults r o2 s h).1⟩
  case sum => simp [BitVec.toNat_add]
  case alu => simp [alu_add]

/-- Settles O23: `exec_mul` writes the low byte of the product to one register. -/
theorem mulWritesTheWrappedProduct : Obligations.MulWritesTheWrappedProduct := by
  refine fun a b s => ⟨_, exec_mul s a b, ?product, fun k hk => s.setReg_reg_of_ne _ hk, rfl, rfl, rfl, rfl, fun _ => rfl⟩
  case product => simp [BitVec.toNat_mul]

/-- Settles O24: `exec_cmp` writes the outcome of `compareBytes`, the unsigned order, and each flag is set for its own outcome. -/
theorem cmpWritesTheFlagsByUnsignedOrder : Obligations.CmpWritesTheFlagsByUnsignedOrder := by
  intro a b s
  obtain ⟨hequal, hless, hgreater⟩ := Flags.ofOutcome_fields (compareBytes (s.reg a) (s.reg b))
  refine ⟨_, exec_cmp s a b, ?equal, ?less, ?greater, fun _ => rfl, rfl, rfl, rfl, fun _ => rfl⟩
  case equal => simp [hequal, compareBytes_eq_equal]
  case less => simp [hless, compareBytes_eq_less]
  case greater => simp [hgreater, compareBytes_eq_greater]

end Sys2Proof.Machine
end

section
/-! The stack instructions (43_stack_control_instructions.md R140 to R144; decision D10, log 10): result and frame of PUSH, POP, CALL and RET,
and what PUSH with POP and CALL with RET do together. -/

namespace Sys2Proof.Machine

variable (s : State)

/-! ### The stack sequences, register by register and cell by cell -/

theorem State.push_reg_of_ne (v : Byte) {k : Reg} (h : k ≠ 7) : (s.push v).reg k = s.reg k := by
  rw [State.push_reg, if_neg h]

theorem State.raiseSp_reg_of_ne {k : Reg} (h : k ≠ 7) : s.raiseSp.reg k = s.reg k := by
  rw [State.raiseSp_reg, if_neg h]

/-- What a pop of the byte `v` into register `r` leaves before the advance: for R7 the stack pointer is `v` when the cell is cleared. -/
def State.popInto (r : Reg) (v : Byte) : State := (s.raiseSp.setReg r v).clearTop

theorem exec_pop_eq_popInto (r : Reg) :
    exec (.pop (regOperand r)) s = .next ((s.popInto r (s.byteAt (s.sp + 1))).setPc (s.pc + 2)) :=
  exec_pop s r

theorem State.popInto_reg (r k : Reg) (v : Byte) :
    (s.popInto r v).reg k = if k = r then v else if k = 7 then s.sp + 1 else s.reg k := by
  simp only [State.popInto, State.clearTop_reg, State.setReg_reg, State.raiseSp_reg, eq_comm (a := r)]

theorem State.popInto_sp (r : Reg) (v : Byte) : (s.popInto r v).sp = if r = 7 then v else s.sp + 1 := by
  rw [State.sp, State.popInto_reg]
  simp [eq_comm (a := r)]

theorem State.popInto_byteAt (r : Reg) (v a : Byte) :
    (s.popInto r v).byteAt a = if a = (if r = 7 then v else s.sp + 1) then 0 else s.byteAt a := by
  rw [← State.popInto_sp]
  exact (State.clearTop_byteAt _ a).trans (if_congr eq_comm rfl rfl)

/-! ### Each instruction -/

/-- Settles O25: `exec_push`, with the cell and the registers of `State.push`. -/
theorem pushStoresThenDecrements : Obligations.PushStoresThenDecrements := by
  refine fun r s => ⟨_, exec_push s r, fun a => ?cell, s.push_sp _, fun k hk => s.push_reg_of_ne _ hk, rfl, rfl, rfl, rfl⟩
  case cell => simp only [State.setPc_byteAt, State.push_byteAt, eq_comm]

/-- Settles O26: the registers and the cleared cell of `State.popInto`, for R7 and for the others. -/
theorem popIncrementsReadsAndClears : Obligations.PopIncrementsReadsAndClears := by
  refine fun r s => ⟨_, exec_pop_eq_popInto s r, ?popped, fun hr => ?raised, fun k hk h7 => ?others,
    fun a => s.popInto_byteAt r _ a, rfl, rfl, rfl, rfl⟩
  case popped => simp [State.popInto_reg]
  case raised => simp [State.popInto_sp, hr]
  case others => simp [State.popInto_reg, hk, h7]

/-- Settles O27: `exec_call` pushes the return address, then reads the register, which the push has changed for R7 alone. -/
theorem callPushesTheReturnAddress : Obligations.CallPushesTheReturnAddress := by
  refine fun r s => ⟨_, exec_call s r, fun a => ?cell, s.push_sp _, fun k hk => s.push_reg_of_ne _ hk, s.push_reg _ r,
    rfl, rfl, rfl⟩
  case cell => simp only [State.setPc_byteAt, State.push_byteAt, eq_comm]

/-- Settles O28: `exec_ret` raises the stack pointer, jumps, and clears the cell there (decision D11, log 11). -/
theorem retPopsIntoTheProgramCounter : Obligations.RetPopsIntoTheProgramCounter := by
  refine fun s => ⟨_, exec_ret s, rfl, s.raiseSp_sp, fun k hk => s.raiseSp_reg_of_ne hk, fun a => ?cell, rfl, rfl, rfl⟩
  case cell => simp [State.clearTop_byteAt, eq_comm]

/-! ### Pairs of them -/

/-- Settles O37: POP raises the stack pointer back to the start's and puts the pushed byte, read from that cell, into the register it came from. -/
theorem pushThenPopRestores : Obligations.PushThenPopRestores := by
  intro r s
  obtain ⟨t, ht, hstored, hlowered, hkept, -⟩ := pushStoresThenDecrements r s
  obtain ⟨u, hu, hpopped, hraised, hothers, hcleared, -⟩ := popIncrementsReadsAndClears r t
  have hsp : t.sp + 1 = s.sp := by rw [hlowered, BitVec.sub_add_cancel]
  have hbyte : t.byteAt (t.sp + 1) = s.reg r := by rw [hsp, hstored, if_pos rfl]
  refine ⟨t, u, ht, hu, fun k => ?register, fun a => ?cell⟩
  case register =>
    by_cases hr : k = r
    · rw [hr, hpopped, hbyte]
    · by_cases h7 : k = 7
      · subst h7
        exact (hraised (Ne.symm hr)).trans hsp
      · rw [hothers k hr h7, hkept k h7]
  case cell =>
    have haddr : (if r = 7 then t.byteAt (t.sp + 1) else t.sp + 1) = s.sp := by
      split
      next h7 => exact hbyte.trans (congrArg s.reg h7)
      next => exact hsp
    rw [hcleared, haddr, hstored]
    split <;> rfl

/-- Settles O38: RET reads the return address from the cell CALL wrote, one above the stack pointer CALL left. -/
theorem callThenBalancedRetReturns : Obligations.CallThenBalancedRetReturns := by
  intro r s t u hcall hsp hcell
  obtain ⟨t', ht', hstored, hlowered, -⟩ := callPushesTheReturnAddress r s
  cases ht'.symm.trans hcall
  obtain ⟨w, hw, hpc, hraised, -⟩ := retPopsIntoTheProgramCounter u
  have hback : u.sp + 1 = s.sp := by rw [hsp, hlowered, BitVec.sub_add_cancel]
  exact ⟨w, hw, by rw [hpc, hback, hcell, hstored, if_pos rfl], hraised.trans hback⟩

/-- Settles O40: the fetch begins with the byte at the program counter, here the cell that `State.push` wrote. -/
theorem storedCodeByteIsFetched : Obligations.StoredCodeByteIsFetched := by
  refine fun r s => ⟨_, exec_push s r, congrArg some ?stored⟩
  case stored => exact (s.push_byteAt _ s.sp).trans (if_pos rfl)

end Sys2Proof.Machine
end

section
/-! The ALU kinds that no instruction reaches (41_alu.md R102, R103, R105, R107, R108) and its errors (R110; 60_exceptions.md R184, R186). -/

namespace Sys2Proof.Machine

/-- Bringing an integer to a byte is taking its non-negative remainder modulo 256 (R101). -/
theorem toNat_wrapByte (n : Int) : ((wrapByte n).toNat : Int) = n % 256 := by
  rw [wrapByte, BitVec.toNat_ofInt]
  omega

theorem toNat_wrapByte_of_lt {n : Nat} (h : n < 256) : (wrapByte n).toNat = n := by
  have := toNat_wrapByte n
  omega

/-- Settles O43: the three answer `wrapByte` of the exact result. -/
theorem aluIncDecSubWrap : Obligations.AluIncDecSubWrap := by
  refine fun a b => ⟨⟨_, rfl, ?inc⟩, ⟨_, rfl, toNat_wrapByte _⟩, ⟨_, rfl, toNat_wrapByte _⟩⟩
  case inc =>
    have := toNat_wrapByte (a.toNat + 1)
    omega

theorem alu_div_of_ne_zero (a : Byte) {b : Byte} (hb : b.toNat ≠ 0) :
    alu .div a b = .value (wrapByte (a.toNat / b.toNat : Nat)) :=
  if_neg hb

theorem alu_mod_of_ne_zero (a : Byte) {b : Byte} (hb : b.toNat ≠ 0) :
    alu .mod a b = .value (wrapByte (a.toNat % b.toNat : Nat)) :=
  if_neg hb

/-- Settles O44: the quotient and the remainder of two bytes are bytes already, and satisfy the division law. -/
theorem aluDivModOrDivisionByZero : Obligations.AluDivModOrDivisionByZero := by
  refine ⟨fun a => ⟨rfl, rfl⟩, fun a b hb => ?_⟩
  have hb : b.toNat ≠ 0 := fun h => hb (BitVec.eq_of_toNat_eq h)
  have hq := toNat_wrapByte_of_lt ((Nat.div_le_self a.toNat b.toNat).trans_lt a.isLt)
  have hr := toNat_wrapByte_of_lt ((Nat.mod_le a.toNat b.toNat).trans_lt a.isLt)
  refine ⟨_, _, alu_div_of_ne_zero a hb, alu_mod_of_ne_zero a hb, ?law, ?below⟩
  case law => rw [hq, hr, Nat.div_add_mod]
  case below => rw [hr]; exact Nat.mod_lt _ (Nat.pos_of_ne_zero hb)

/-- Settles O46: the delivery of an error raises it over the state it was given, and `execute` enters the fault. -/
theorem aluErrorsWriteNothing : Obligations.AluErrorsWriteNothing :=
  ⟨fun _ _ _ => rfl, fun _ d e s => execute_raised s (deliver_error d e s)⟩

end Sys2Proof.Machine
end
